-- ==== Sys2Proof/Word.lean ====
section
/-! DEFINITION. The word types of the CORE (00_scope.md R6, 30_encoding.md R61): nothing in this hardware is signed. -/

namespace Sys2Proof

/-- A general register, a timer, a memory byte, the immediate `nn`: 8 bits (R6 `REG_BITS`). -/
abbrev Byte := BitVec 8

/-- An instruction word, the pc, the index register, a saved pc: 16 bits (R6 `PC_BITS`, `I_BITS`). -/
abbrev Word := BitVec 16

/-- A register index, a key index, the row count of DRW: a 4-bit field (R61). -/
abbrev Nibble := BitVec 4

/-- The address operand `nnn`: 12 bits (R61). -/
abbrev Addr12 := BitVec 12

end Sys2Proof
end

