-- ==== Sys2Proof/Syntax.lean ====
section
/-! DEFINITION. The instructions: one constructor per row of spec/opcode_table.json, in the table's order
(30_encoding.md R65). Operands are the fields of R61 that the row's format R62 makes operands; ignored bits
(`n` of rows 7 and 19, `y` of the shifts: R67, R68) are not operands. -/

namespace Sys2Proof

inductive Instr where
  /-- 00E0, R120 -/
  | cls
  /-- 00EE, R90 -/
  | ret
  /-- 1NNN, R91 -/
  | jp (nnn : Addr12)
  /-- 2NNN, R92 -/
  | call (nnn : Addr12)
  /-- 3XNN, R93 -/
  | seImm (x : Nibble) (nn : Byte)
  /-- 4XNN, R94 -/
  | sneImm (x : Nibble) (nn : Byte)
  /-- 5XY-, R95 -/
  | seReg (x y : Nibble)
  /-- 6XNN, R100 -/
  | ldImm (x : Nibble) (nn : Byte)
  /-- 7XNN, R101 -/
  | addImm (x : Nibble) (nn : Byte)
  /-- 8XY0, R102 -/
  | ldReg (x y : Nibble)
  /-- 8XY1, R103 -/
  | orReg (x y : Nibble)
  /-- 8XY2, R104 -/
  | andReg (x y : Nibble)
  /-- 8XY3, R105 -/
  | xorReg (x y : Nibble)
  /-- 8XY4, R106 -/
  | addReg (x y : Nibble)
  /-- 8XY5, R107 -/
  | subReg (x y : Nibble)
  /-- 8XY6, R108 -/
  | shr (x : Nibble)
  /-- 8XY7, R109 -/
  | subnReg (x y : Nibble)
  /-- 8XYE, R110 -/
  | shl (x : Nibble)
  /-- 9XY-, R96 -/
  | sneReg (x y : Nibble)
  /-- ANNN, R136 -/
  | ldI (nnn : Addr12)
  /-- BNNN, R97 -/
  | jpV0 (nnn : Addr12)
  /-- CXNN, R111 -/
  | rnd (x : Nibble) (nn : Byte)
  /-- DXYN, R121 -/
  | drw (x y n : Nibble)
  /-- EX9E, R130 -/
  | skp (x : Nibble)
  /-- EXA1, R131 -/
  | sknp (x : Nibble)
  /-- FX07, R132 -/
  | ldVxDt (x : Nibble)
  /-- FX0A, R133 -/
  | ldVxK (x : Nibble)
  /-- FX15, R134 -/
  | ldDtVx (x : Nibble)
  /-- FX18, R135 -/
  | ldStVx (x : Nibble)
  /-- FX1E, R137 -/
  | addI (x : Nibble)
  /-- FX29, R138 -/
  | ldF (x : Nibble)
  /-- FX33, R139 -/
  | ldB (x : Nibble)
  /-- FX55, R140 -/
  | storeRegs (x : Nibble)
  /-- FX65, R141 -/
  | loadRegs (x : Nibble)
deriving DecidableEq, Repr

end Sys2Proof
end

