-- ==== Sys2Proof/Config.lean ====
section
/-! DEFINITION. The parameters of 00_scope.md R6 that definitions name, and the one value the spec leaves free.
(The font table, a configuration table of R42, stands in Machine/Font.lean.) -/

namespace Sys2Proof.Config

/-- `MEM_SIZE`: addresses 0x000 to 0xFFF (R6, R40). -/
abbrev memSize : Nat := 4096

/-- `PROG_BASE`: load address and reset value of the pc (R6). -/
abbrev progBase : Nat := 0x200

/-- The random byte of RND (42_alu.md R111, D18): "a free 8-bit value drawn anew at every step", under no law.
It has no body, so nothing can be proved of its values; it is applied to `State.draws`, which numbers the draws.
DESIGN CHOICE (the form of the free value): log 1. -/
opaque rndByte : Nat → Byte

end Sys2Proof.Config
end

