-- ==== Sys2Proof/Machine/Font.lean ====
section
/-! DEFINITION. The font table `FONT[0..79]` of 20_memory.md R42, with the spec's default bytes.
PRESUMED by the spec itself ("from general knowledge, not in source", D30, G3): log 3. -/

namespace Sys2Proof.Machine

/-- Glyphs of the digits 0 to 7, five bytes each, top row first (R42). -/
def fontLow : List Byte :=
  [0xF0, 0x90, 0x90, 0x90, 0xF0] ++ [0x20, 0x60, 0x20, 0x20, 0x70] ++
  [0xF0, 0x10, 0xF0, 0x80, 0xF0] ++ [0xF0, 0x10, 0xF0, 0x10, 0xF0] ++
  [0x90, 0x90, 0xF0, 0x10, 0x10] ++ [0xF0, 0x80, 0xF0, 0x10, 0xF0] ++
  [0xF0, 0x80, 0xF0, 0x90, 0xF0] ++ [0xF0, 0x10, 0x20, 0x40, 0x40]

/-- Glyphs of the digits 8 to F (R42). -/
def fontHigh : List Byte :=
  [0xF0, 0x90, 0xF0, 0x90, 0xF0] ++ [0xF0, 0x90, 0xF0, 0x10, 0xF0] ++
  [0xF0, 0x90, 0xF0, 0x90, 0x90] ++ [0xE0, 0x90, 0xE0, 0x90, 0xE0] ++
  [0xF0, 0x80, 0x80, 0x80, 0xF0] ++ [0xE0, 0x90, 0x90, 0x90, 0xE0] ++
  [0xF0, 0x80, 0xF0, 0x80, 0xF0] ++ [0xF0, 0x80, 0xF0, 0x80, 0x80]

/-- The table `FONT` (R42). -/
def font : List Byte := fontLow ++ fontHigh

/-- What an address of memory that no entry lists reads as: the contents after `initialize()` (10_state.md R28),
the font at 0x000..0x04F and zero elsewhere. -/
def unlistedByte (a : Nat) : Byte := font.getD a 0

end Sys2Proof.Machine
end

