-- ==== Sys2Proof/Machine/State.lean ====
section
/-! DEFINITION. The Interpreter State of 10_state.md R10, as plain data, and its value after `initialize()` (R28). -/

namespace Sys2Proof.Machine

/-- Memory: the cells that differ from the contents after `initialize()`, in strictly rising order of address
(`Memory.wf` in Machine/Ops.lean); an unlisted address reads as `unlistedByte`. 20_memory.md R40.
DESIGN CHOICE for the form, log 19. -/
abbrev Memory := List Host.Cell

/-- The framebuffer: 32 rows of 64 cells, `true` lit (10_state.md R20). The linear index `y*64 + x` of the spec is
read by `Screen.cell`. -/
abbrev Screen := Vector (Vector Bool 64) 32

/-- The halt/wait state (10_state.md R23). -/
inductive Wait where
  /-- no wait pending -/
  | running
  /-- LD Vx,K was executed, no press delivered since -/
  | awaitingKey (x : Nibble)
  /-- a press of key `k` was delivered; the next step completes the wait -/
  | keyLatched (x k : Nibble)
deriving DecidableEq, Repr

/-- The kinds of fatal condition that the fault latch records (10_state.md R24, 60_exceptions.md R150). -/
inductive FatalKind where
  | stackOverflow
  | stackUnderflow
  | memoryFault
deriving DecidableEq, Repr

/-- The whole state (10_state.md R10), and `draws`, the model's own counter. -/
structure State where
  /-- R40: 4096 bytes -/
  mem : Memory
  /-- R11: V0 to VF -/
  v : Vector Byte 16
  /-- R14: the index register I -/
  i : Word
  /-- R15: the address of the next instruction; during an instruction, its own address -/
  pc : Word
  /-- R18: S[0] to S[15] -/
  stack : Vector Word 16
  /-- R18: the depth, 0 to 16 -/
  sp : Fin 17
  /-- R19: the delay timer DT -/
  dt : Byte
  /-- R19: the sound timer ST -/
  st : Byte
  /-- R20: the framebuffer -/
  fb : Screen
  /-- R21: the needs-redraw flag -/
  redraw : Bool
  /-- R22: the key state, `true` pressed -/
  keys : Vector Bool 16
  /-- R23: the halt/wait state -/
  wait : Wait
  /-- R24: the fault latch -/
  fault : Option FatalKind
  /-- R25: the sticky diagnostic bit -/
  unknownSeen : Bool
  /-- NOT the spec's: it numbers the random bytes that RND has drawn, for `Config.rndByte`. DESIGN CHOICE, log 1. -/
  draws : Nat
deriving DecidableEq, Repr

/-- The faults that stop the model itself: none. A fatal condition of the spec is taken (60_exceptions.md R157): a
next state with the latch `State.fault` set, after which every step is idle. The latch is the
spec's DESIGN CHOICE (D6, log 17). -/
inductive Fault where
deriving DecidableEq, Repr

/-- The refusals of the model. -/
inductive Refusal where
  /-- raised by an arm of `exec` whose instruction has no meaning yet; safe; no arm of this model raises it -/
  | notModelled (mnemonic : String)
deriving DecidableEq, Repr

/-- What a meaning and a step answer. -/
abbrev Result := Host.Outcome State Fault Refusal

/-- The machine right after `initialize()`, invoked on the state at its creation (10_state.md R28, R30): `keys` is 0 at
creation and `initialize()` leaves it alone (log 7). `draws` 0 is the model's choice (log 2). -/
def State.reset : State where
  mem := []
  v := Vector.replicate 16 0
  i := 0
  pc := 0x200
  stack := Vector.replicate 16 0
  sp := 0
  dt := 0
  st := 0
  fb := Vector.replicate 32 (Vector.replicate 64 false)
  redraw := true
  keys := Vector.replicate 16 false
  wait := .running
  fault := none
  unknownSeen := false
  draws := 0

end Sys2Proof.Machine
end

