-- ==== Sys2Proof/Machine/Ops.lean ====
section
/-! DEFINITION. The named operations over memory, registers, pc, stack, latch and wait state that the meanings are
written over; taking a fatal fault, and `initialize()`, the only way back from one. -/

namespace Sys2Proof.Machine

/-! ## Memory (20_memory.md R40, R44, R45) -/

/-- The byte at an address. -/
def Memory.readByte : Memory → Nat → Byte
  | [], a => unlistedByte a
  | (k, b) :: m, a => if k = a then b else Memory.readByte m a

/-- Drops every entry of an address. -/
def Memory.erase (m : Memory) (a : Nat) : Memory := m.filter (fun c => c.1 != a)

/-- Puts an entry before the first one of a higher address. -/
def Memory.insert : Memory → Nat → Byte → Memory
  | [], a, b => [(a, b)]
  | (k, c) :: m, a, b => if a < k then (a, b) :: (k, c) :: m else (k, c) :: Memory.insert m a b

/-- Writes the byte at an address, keeping the canonical form: a byte equal to what the address reads as unlisted
is not listed. -/
def Memory.writeByte (m : Memory) (a : Nat) (b : Byte) : Memory :=
  if b = unlistedByte a then m.erase a else (m.erase a).insert a b

/-- The bytes at `n` ascending addresses from `a` (R47). -/
def Memory.readBytes (m : Memory) (a : Nat) : Nat → List Byte
  | 0 => []
  | n + 1 => m.readByte a :: Memory.readBytes m (a + 1) n

/-- Writes bytes at ascending addresses from `a` (R47). -/
def Memory.writeBytes (m : Memory) (a : Nat) : List Byte → Memory
  | [] => m
  | b :: bs => Memory.writeBytes (m.writeByte a b) (a + 1) bs

/-- The canonical form: strictly rising addresses, all inside the address space, and no entry that says what the
address would read as unlisted. -/
abbrev Memory.wf (m : Memory) : Prop :=
  m.Pairwise (fun c d => c.1 < d.1) ∧ ∀ c ∈ m, c.1 < Config.memSize ∧ c.2 ≠ unlistedByte c.1

/-- The range check made before any effect (R45): `n` bytes from address `a` lie inside 0x000 to 0xFFF, or there are
none. The address is an unbounded number, validated and never masked (R44, D2). -/
def inMemory (a n : Nat) : Bool := n == 0 || decide (a + n ≤ Config.memSize)

/-! ## Registers and pc (10_state.md R11, R14, R15) -/

/-- Reads `V[r]`. -/
def State.reg (s : State) (r : Nibble) : Byte := s.v[r.toNat]'(r.isLt)

/-- Writes `V[r]`. -/
def State.setReg (s : State) (r : Nibble) (b : Byte) : State := { s with v := s.v.set r.toNat b r.isLt }

/-- Writes `I`. -/
def State.setI (s : State) (w : Word) : State := { s with i := w }

/-- Writes the pc. -/
def State.jumpTo (s : State) (w : Word) : State := { s with pc := w }

/-- The default advance, `pc + 2` (40_step_cycle.md R82). In 16 bits: DEDUCED, log 18. -/
def State.advance (s : State) : State := s.jumpTo (s.pc + 2)

/-- The skips: `pc + 4` if the condition holds, else `pc + 2` (R82). -/
def State.skipIf (s : State) (c : Bool) : State := s.jumpTo (if c then s.pc + 4 else s.pc + 2)

/-- `V[r], V[r+1], ...` as the bytes to store: `count` registers from index `r` (R140). -/
def State.regsFrom (s : State) (r : Nat) : Nat → List Byte
  | 0 => []
  | count + 1 => s.reg (BitVec.ofNat 4 r) :: State.regsFrom s (r + 1) count

/-- Loads bytes into the registers of ascending index from `r` (R141). -/
def State.setRegsFrom (s : State) (r : Nat) : List Byte → State
  | [] => s
  | b :: bs => State.setRegsFrom (s.setReg (BitVec.ofNat 4 r) b) (r + 1) bs

/-! ## Memory of a state -/

/-- Writes bytes at ascending addresses; its callers have checked the range. No address is write-protected (R43): DESIGN
CHOICE of the spec (D17, log 15). -/
def State.store (s : State) (a : Nat) (bs : List Byte) : State := { s with mem := s.mem.writeBytes a bs }

/-! ## Timers, screen, wait state, diagnostic bit, draws -/

/-- Writes DT (R19). -/
def State.setDt (s : State) (b : Byte) : State := { s with dt := b }

/-- Writes ST (R19). -/
def State.setSt (s : State) (b : Byte) : State := { s with st := b }

/-- Writes the framebuffer and sets the redraw flag (R21). -/
def State.paint (s : State) (fb : Screen) : State := { s with fb := fb, redraw := true }

/-- Writes the redraw flag (R21). -/
def State.setRedraw (s : State) (b : Bool) : State := { s with redraw := b }

/-- Writes the wait state (R23). -/
def State.setWait (s : State) (w : Wait) : State := { s with wait := w }

/-- Writes one key (R22). -/
def State.setKey (s : State) (k : Nibble) (b : Bool) : State := { s with keys := s.keys.set k.toNat b k.isLt }

/-- Sets the sticky diagnostic bit (R25). -/
def State.markUnknown (s : State) : State := { s with unknownSeen := true }

/-- Numbers one more random draw (log 1). -/
def State.drawn (s : State) : State := { s with draws := s.draws + 1 }

/-! ## The call stack (10_state.md R18) -/

/-- Pushes the pc; `none` when the stack is full (41_control_flow.md R92). -/
def State.push? (s : State) : Option State :=
  if h : s.sp.val < 16 then
    some { s with stack := s.stack.set s.sp.val s.pc h, sp := ⟨s.sp.val + 1, Nat.succ_lt_succ h⟩ }
  else none

/-- The newest saved value and the state with it popped; `none` when the stack is empty (R90). The entry
itself stays: DESIGN CHOICE, log 20. -/
def State.pop? (s : State) : Option (Word × State) :=
  if h : s.sp.val = 0 then none
  else
    some (s.stack[s.sp.val - 1]'(Nat.lt_of_lt_of_le (Nat.sub_one_lt h) (Nat.le_of_lt_succ s.sp.isLt)),
      { s with sp := ⟨s.sp.val - 1, Nat.lt_of_le_of_lt (Nat.sub_le _ _) s.sp.isLt⟩ })

/-! ## Taking a fault, and the way back (60_exceptions.md R157, R158) -/

/-- Fault entry: "The only change is `fault <- kind`" (R157, 40_step_cycle.md R84). -/
def State.raise (s : State) (k : FatalKind) : State := { s with fault := some k }

/-- `initialize()`: every element to its reset value but `keys`, which it leaves alone (70_reset_and_hazards.md R180,
10_state.md R28); the only operation that ends a faulted state (R158). The model's counter `draws` runs on (log 2). -/
def State.initialise (s : State) : State := { State.reset with keys := s.keys, draws := s.draws }

/-- An access to `n` bytes from address `a`: the effect `t` if the whole range lies in memory, else `MemoryFault` and
nothing else (20_memory.md R45, 60_exceptions.md R153). -/
def State.ifInMemory (s : State) (a n : Nat) (t : State) : State :=
  if inMemory a n then t else s.raise .memoryFault

/-! ## Parts of the step cycle (40_step_cycle.md) -/

/-- The instruction fetch (R81); `none` when the pc is above 0xFFE. -/
def State.fetch16? (s : State) : Option Word :=
  if inMemory s.pc.toNat 2 then
    some (joinBytes (s.mem.readByte s.pc.toNat) (s.mem.readByte (s.pc.toNat + 1)))
  else none

/-- An unknown word: reported and skipped (R83). -/
def State.reportUnknown (s : State) : State := s.markUnknown.advance

/-- The completion of a key-wait (R80 case 3). -/
def State.completeWait (s : State) (x k : Nibble) : State :=
  ((s.setReg x (k.setWidth 8)).advance).setWait .running

/-- What the next step will do (the cases of R80). -/
inductive Phase where
  /-- cases 1 and 2 -/
  | idle
  /-- case 3 -/
  | complete (x k : Nibble)
  /-- case 4, the fetch raises `MemoryFault` -/
  | fetchFault
  /-- case 5 -/
  | unknown (w : Word)
  /-- case 6 -/
  | run (i : Instr)
deriving DecidableEq, Repr

/-- Cases 4 to 6 of R80: fetch and decode. -/
def fetchPhase (s : State) : Phase :=
  match s.fetch16? with
  | none => .fetchFault
  | some w =>
    match decode w with
    | none => .unknown w
    | some i => .run i

/-- The case of R80 that applies, tried in its order: latch, wait, latched key, fetch, decode. -/
def phase (s : State) : Phase :=
  match s.fault, s.wait with
  | some _, _ => .idle
  | none, .awaitingKey _ => .idle
  | none, .keyLatched x k => .complete x k
  | none, .running => fetchPhase s

/-- The bytes of an instruction put where the next fetch reads them, with neither a wait nor a latched fault in the
way; where the pc is such that no fetch can succeed, memory is left alone. -/
def State.placeAtPc (s : State) (bs : List Byte) : State :=
  let t := { s with wait := .running, fault := none }
  if inMemory s.pc.toNat bs.length then t.store s.pc.toNat bs else t

end Sys2Proof.Machine
end

