-- ==== Sys2Proof/Machine/Flags.lean ====
section
/-! DEFINITION. The values that six instructions write to VF (10_state.md R13, the flags summary of section 2), and
the order of the two writes. -/

namespace Sys2Proof.Machine

/-- The index of VF (R12). -/
def flagReg : Nibble := 15

/-- A flag as a register value: 1 or 0. -/
def flagByte (c : Bool) : Byte := if c then 1 else 0

/-- Carry of ADD Vx,Vy: the true sum exceeds 255 (42_alu.md R106). -/
def carryOut (a b : Byte) : Bool := decide (255 < a.toNat + b.toNat)

/-- Not-borrow of a subtraction: minuend at least subtrahend (R107, R109). -/
def notBorrow (minuend subtrahend : Byte) : Bool := decide (subtrahend.toNat ≤ minuend.toNat)

/-- The bit that SHR shifts out (R108). -/
def shiftedOutRight (a : Byte) : Bool := a.getLsbD 0

/-- The bit that SHL shifts out (R110). -/
def shiftedOutLeft (a : Byte) : Bool := a.getLsbD 7

/-- Writes VF as a flag. -/
def State.setFlag (s : State) (c : Bool) : State := s.setReg flagReg (flagByte c)

/-- The result to `V[x]`, then the flag to VF, last (10_state.md R13, D19): with `x = 15` VF ends as the flag.
DESIGN CHOICE of the spec, log 9. -/
def State.setResult (s : State) (x : Nibble) (result : Byte) (flag : Bool) : State :=
  (s.setReg x result).setFlag flag

end Sys2Proof.Machine
end

