-- ==== Sys2Proof/Machine/Operands.lean ====
section
/-! DEFINITION. The operand forms: zero-extension of immediates (30_encoding.md R64), the index register as a base
address (20_memory.md R44), the key named by a register (44_keys_timers_memory.md R142), the digits of LD B and the
glyph address of LD F. -/

namespace Sys2Proof.Machine

/-- `zext_16(nnn)` (R64). -/
def addrWord (nnn : Addr12) : Word := nnn.setWidth 16

/-- `zext_16` of an 8-bit value (R7, R64). -/
def byteWord (b : Byte) : Word := b.setWidth 16

/-- The base address of a memory access, an unbounded number (R44). -/
def State.base (s : State) : Nat := s.i.toNat

/-- Whether the key with this index is pressed; an index above 15 is not pressed and not masked (R142).
DESIGN CHOICE of the spec (D14, log 13). -/
def State.pressed (s : State) (b : Byte) : Bool := if h : b.toNat < 16 then s.keys[b.toNat]'h else false

/-- How many registers a block transfer moves: `x + 1` (R140, R141). -/
def blockSize (x : Nibble) : Nat := x.toNat + 1

/-- Hundreds, tens and units of a register value (R139). -/
def bcdDigits (b : Byte) : List Byte :=
  [BitVec.ofNat 8 (b.toNat / 100), BitVec.ofNat 8 (b.toNat / 10 % 10), BitVec.ofNat 8 (b.toNat % 10)]

/-- The address of the glyph of a digit, the low nibble of the value (R138). DESIGN CHOICE of the spec
(D13, log 12). -/
def glyphAddress (b : Byte) : Word := 5 * byteWord (b &&& 0x0F)

end Sys2Proof.Machine
end

