-- ==== Sys2Proof/Machine/Alu.lean ====
section
/-! DEFINITION. Register and ALU instructions (42_alu.md); results wrap modulo 256 (R112). -/

namespace Sys2Proof.Machine

/-- LD Vx,nn (R100). -/
def execLdImm (x : Nibble) (nn : Byte) (s : State) : Result := .next (s.setReg x nn).advance

/-- ADD Vx,nn (R101): VF is not written. -/
def execAddImm (x : Nibble) (nn : Byte) (s : State) : Result := .next (s.setReg x (s.reg x + nn)).advance

/-- LD Vx,Vy (R102). -/
def execLdReg (x y : Nibble) (s : State) : Result := .next (s.setReg x (s.reg y)).advance

/-- OR Vx,Vy (R103): VF is not written. -/
def execOrReg (x y : Nibble) (s : State) : Result := .next (s.setReg x (s.reg x ||| s.reg y)).advance

/-- AND Vx,Vy (R104). -/
def execAndReg (x y : Nibble) (s : State) : Result := .next (s.setReg x (s.reg x &&& s.reg y)).advance

/-- XOR Vx,Vy (R105). -/
def execXorReg (x y : Nibble) (s : State) : Result := .next (s.setReg x (s.reg x ^^^ s.reg y)).advance

/-- ADD Vx,Vy (R106). -/
def execAddReg (x y : Nibble) (s : State) : Result :=
  .next (s.setResult x (s.reg x + s.reg y) (carryOut (s.reg x) (s.reg y))).advance

/-- SUB Vx,Vy (R107). -/
def execSubReg (x y : Nibble) (s : State) : Result :=
  .next (s.setResult x (s.reg x - s.reg y) (notBorrow (s.reg x) (s.reg y))).advance

/-- SHR Vx (R108). -/
def execShr (x : Nibble) (s : State) : Result :=
  .next (s.setResult x (s.reg x >>> 1) (shiftedOutRight (s.reg x))).advance

/-- SUBN Vx,Vy (R109). -/
def execSubnReg (x y : Nibble) (s : State) : Result :=
  .next (s.setResult x (s.reg y - s.reg x) (notBorrow (s.reg y) (s.reg x))).advance

/-- SHL Vx (R110). -/
def execShl (x : Nibble) (s : State) : Result :=
  .next (s.setResult x (s.reg x <<< 1) (shiftedOutLeft (s.reg x))).advance

/-- RND Vx,nn (R111): the byte is free, and each RND draws a new one. -/
def execRnd (x : Nibble) (nn : Byte) (s : State) : Result :=
  .next ((s.setReg x (Config.rndByte s.draws &&& nn)).drawn).advance

end Sys2Proof.Machine
end

