-- ==== Sys2Proof/Machine/Control.lean ====
section
/-! DEFINITION. Control transfer: RET, JP, CALL, SE, SNE, JP V0 (41_control_flow.md). -/

namespace Sys2Proof.Machine

/-- RET (R90). -/
def execRet (s : State) : Result :=
  match s.pop? with
  | none => .next (s.raise .stackUnderflow)
  | some (t, popped) => .next (popped.jumpTo (t + 2))

/-- JP nnn (R91). -/
def execJp (nnn : Addr12) (s : State) : Result := .next (s.jumpTo (addrWord nnn))

/-- CALL nnn (R92): pushes the address of the CALL itself. -/
def execCall (nnn : Addr12) (s : State) : Result :=
  match s.push? with
  | none => .next (s.raise .stackOverflow)
  | some pushed => .next (pushed.jumpTo (addrWord nnn))

/-- SE Vx,nn (R93). -/
def execSeImm (x : Nibble) (nn : Byte) (s : State) : Result := .next (s.skipIf (s.reg x == nn))

/-- SNE Vx,nn (R94). -/
def execSneImm (x : Nibble) (nn : Byte) (s : State) : Result := .next (s.skipIf (s.reg x != nn))

/-- SE Vx,Vy (R95). -/
def execSeReg (x y : Nibble) (s : State) : Result := .next (s.skipIf (s.reg x == s.reg y))

/-- SNE Vx,Vy (R96). -/
def execSneReg (x y : Nibble) (s : State) : Result := .next (s.skipIf (s.reg x != s.reg y))

/-- JP V0,nnn (R97): the sum is not masked. PRESUMED by the spec (G4, D24, log 5). -/
def execJpV0 (nnn : Addr12) (s : State) : Result := .next (s.jumpTo (addrWord nnn + byteWord (s.reg 0)))

end Sys2Proof.Machine
end

