-- ==== Sys2Proof/Machine/Graphics.lean ====
section
/-! DEFINITION. CLS and DRW, and the screen they write (43_graphics.md; 10_state.md R20). -/

namespace Sys2Proof.Machine

/-- `fb[j]`, the cell of linear index `j = y*64 + x` (R20). -/
def Screen.cell (fb : Screen) (j : Nat) : Bool :=
  if h : j < 2048 then
    (fb[j / 64]'(Nat.div_lt_of_lt_mul h))[j % 64]'(Nat.mod_lt j (by decide))
  else false

/-- `fb[j] <- fb[j] ^ 1` (R121). -/
def Screen.flip (fb : Screen) (j : Nat) : Screen :=
  if h : j < 2048 then
    fb.set (j / 64)
      ((fb[j / 64]'(Nat.div_lt_of_lt_mul h)).set (j % 64) (!fb.cell j) (Nat.mod_lt j (by decide)))
      (Nat.div_lt_of_lt_mul h)
  else fb

/-- Every cell unlit (R120). -/
def Screen.blank : Screen := Vector.replicate 32 (Vector.replicate 64 false)

/-- The cells that the set bits of one sprite row reach, left to right: bit 7 is the leftmost (R122), and a pixel beyond
column 63 or row 31 is dropped (R123). `x0` and `py` are not reduced. The bit order is PRESUMED by the spec
(G7, log 6), the anchor's not wrapping its DESIGN CHOICE (D10, log 11). -/
def rowCells (x0 py : Nat) (b : Byte) : List Nat :=
  (List.range 8).filterMap fun c =>
    if b.getLsbD (7 - c) && decide (x0 + c ≤ 63) && decide (py ≤ 31) then some (py * 64 + (x0 + c)) else none

/-- The cells that a sprite reaches, row by row from row `py` down (R121). -/
def spriteCells (x0 py : Nat) : List Byte → List Nat
  | [] => []
  | b :: bs => rowCells x0 py b ++ spriteCells x0 (py + 1) bs

/-- Flips the cells in order; the Boolean is the collision, whether some cell was lit before its flip (R121, R125). -/
def Screen.drawCells (fb : Screen) (cells : List Nat) : Screen × Bool :=
  cells.foldl (fun acc j => (acc.1.flip j, acc.2 || acc.1.cell j)) (fb, false)

/-- CLS (R120). -/
def execCls (s : State) : Result := .next (s.paint Screen.blank).advance

/-- The screen and the collision that DRW leaves: the `n` rows at `I` drawn at the anchor (Vx, Vy) (R121). -/
def State.sprite (s : State) (x y n : Nibble) : Screen × Bool :=
  s.fb.drawCells (spriteCells (s.reg x).toNat (s.reg y).toNat (s.mem.readBytes s.base n.toNat))

/-- DRW Vx,Vy,n (R121): the whole range is checked before any pixel is touched, and `n = 0` never faults (R124). -/
def execDrw (x y n : Nibble) (s : State) : Result :=
  .next (s.ifInMemory s.base n.toNat
    (((s.setFlag (s.sprite x y n).2).paint (s.sprite x y n).1).advance))

end Sys2Proof.Machine
end

