-- ==== Sys2Proof/Machine/Index.lean ====
section
/-! DEFINITION. The index register and the instructions that store and load through it
(44_keys_timers_memory.md sections 4 to 6). -/

namespace Sys2Proof.Machine

/-- LD I,nnn (R136): PRESUMED by the spec (G4, log 5). -/
def execLdI (nnn : Addr12) (s : State) : Result := .next (s.setI (addrWord nnn)).advance

/-- ADD I,Vx (R137): modulo 65536, VF not written, no fault. DESIGN CHOICE of the spec (D3, log 8; D25, log 14). -/
def execAddI (x : Nibble) (s : State) : Result := .next (s.setI (s.i + byteWord (s.reg x))).advance

/-- LD F,Vx (R138). -/
def execLdF (x : Nibble) (s : State) : Result := .next (s.setI (glyphAddress (s.reg x))).advance

/-- LD B,Vx (R139). -/
def execLdB (x : Nibble) (s : State) : Result :=
  .next (s.ifInMemory s.base 3 (s.store s.base (bcdDigits (s.reg x))).advance)

/-- `I + x + 1`, what a block transfer leaves in `I` (R140, R141). -/
def State.indexAfterBlock (s : State) (x : Nibble) : Word := s.i + BitVec.ofNat 16 (blockSize x)

/-- LD [I],Vx (R140). -/
def execStoreRegs (x : Nibble) (s : State) : Result :=
  .next (s.ifInMemory s.base (blockSize x)
    (((s.store s.base (s.regsFrom 0 (blockSize x))).setI (s.indexAfterBlock x)).advance))

/-- LD Vx,[I] (R141). -/
def execLoadRegs (x : Nibble) (s : State) : Result :=
  .next (s.ifInMemory s.base (blockSize x)
    (((s.setRegsFrom 0 (s.mem.readBytes s.base (blockSize x))).setI (s.indexAfterBlock x)).advance))

end Sys2Proof.Machine
end

