-- ==== Sys2Proof/Machine/Keys.lean ====
section
/-! DEFINITION. Key skips, the key-wait and the timer moves (44_keys_timers_memory.md sections 1 to 3). -/

namespace Sys2Proof.Machine

/-- SKP Vx (R130). -/
def execSkp (x : Nibble) (s : State) : Result := .next (s.skipIf (s.pressed (s.reg x)))

/-- SKNP Vx (R131). -/
def execSknp (x : Nibble) (s : State) : Result := .next (s.skipIf (!s.pressed (s.reg x)))

/-- LD Vx,DT (R132). -/
def execLdVxDt (x : Nibble) (s : State) : Result := .next (s.setReg x s.dt).advance

/-- LD Vx,K (R133): begins the wait; the pc does not move. -/
def execLdVxK (x : Nibble) (s : State) : Result := .next (s.setWait (.awaitingKey x))

/-- LD DT,Vx (R134). -/
def execLdDtVx (x : Nibble) (s : State) : Result := .next (s.setDt (s.reg x)).advance

/-- LD ST,Vx (R135). -/
def execLdStVx (x : Nibble) (s : State) : Result := .next (s.setSt (s.reg x)).advance

end Sys2Proof.Machine
end

