-- ==== Sys2Proof/Machine/Step.lean ====
section
/-! DEFINITION. One `step` (40_step_cycle.md R80), over the operations of Machine/Ops.lean; and the placing of an
instruction where the next step fetches. -/

namespace Sys2Proof.Machine

/-- `step(rnd)` of R80; the free input `rnd` is `Config.rndByte s.draws` (log 1). What it returns to the caller, the
StepResult of R85, is `stepResult` in Machine/HostOps.lean. -/
def step (s : State) : Host.Outcome State Fault Refusal :=
  match phase s with
  | .idle => .next s
  | .complete x k => .next (s.completeWait x k)
  | .fetchFault => .next (s.raise .memoryFault)
  | .unknown _ => .next s.reportUnknown
  | .run i => exec i s

/-- The state with the instruction whose bits are `w`, numbered as the opcode table numbers them, placed at the pc, so
that the very next step fetches and runs it. It stands for the load of a program (log 7). -/
def State.withFetchWord (s : State) (nbits w : Nat) : State := s.placeAtPc (tableBytes nbits w)

end Sys2Proof.Machine
end

