-- ==== Sys2Proof/Machine/HostOps.lean ====
section
/-! DEFINITION. The interface operations of the CORE (00_scope.md R3) other than the bare step: the StepResult of a
step (40_step_cycle.md R85), `loadProgram` (70_reset_and_hazards.md R182), `tickTimers`, `keyPress`, `keyRelease`,
`readFramebuffer`, `consumeRedraw` (60_exceptions.md R163 to R167), all eight as one type, and a schedule of them.
`initialize()` is `State.initialise` in Machine/Ops.lean. -/

namespace Sys2Proof.Machine

/-- What `step` returns (R85). -/
inductive StepResult where
  | idle
  | ok
  | unknownOpcode (w : Word) (a : Word)
  | fault (k : FatalKind)
deriving DecidableEq, Repr

/-- The StepResult of a step from `s` to `t` (R85, in the cases of R80). -/
def stepResult (s t : State) : StepResult :=
  match phase s with
  | .idle => .idle
  | .complete _ _ => .ok
  | .fetchFault => .fault .memoryFault
  | .unknown w => .unknownOpcode w s.pc
  | .run _ =>
    match t.fault with
    | none => .ok
    | some k => .fault k

/-- What `loadProgram` returns (R182). -/
inductive LoadResult where
  | ok
  /-- the image is too large (R183); not latched in `fault` -/
  | outOfBounds
deriving DecidableEq, Repr

/-- `loadProgram(bytes)` (R182): the image is rejected whole when `0x200 + len > 0xFFF` (R183). -/
def State.loadProgram (s : State) (bytes : List Byte) : State × LoadResult :=
  if Config.progBase + bytes.length > 0xFFF then (s, .outOfBounds)
  else (s.store Config.progBase bytes, .ok)

/-- One count down, never below 0 (R165). -/
def countDown (b : Byte) : Byte := if b = 0 then 0 else b - 1

/-- `tickTimers()`; the Boolean is `tone_boundary` (R165, R166). It acts in every state of `wait` and `fault` (D22). -/
def State.tickTimers (s : State) : State × Bool :=
  ((s.setDt (countDown s.dt)).setSt (countDown s.st), s.st == 1)

/-- What a key press does to the wait state (R163): only a pending wait takes it. -/
def Wait.press (w : Wait) (k : Nibble) : Wait :=
  match w with
  | .awaitingKey x => .keyLatched x k
  | .running => .running
  | .keyLatched x k' => .keyLatched x k'

/-- `keyPress(k)` (R163). -/
def State.keyPress (s : State) (k : Nibble) : State := (s.setKey k true).setWait (s.wait.press k)

/-- `keyRelease(k)` (R164). -/
def State.keyRelease (s : State) (k : Nibble) : State := s.setKey k false

/-- `consumeRedraw()` (R167). -/
def State.consumeRedraw (s : State) : State := s.setRedraw false

/-- The interface operations (00_scope.md R3). -/
inductive Op where
  | initialise
  | loadProgram (bytes : List Byte)
  | step
  | tickTimers
  | keyPress (k : Nibble)
  | keyRelease (k : Nibble)
  | readFramebuffer
  | consumeRedraw
deriving DecidableEq, Repr

/-- What an operation hands back to its caller (R3, column "output"). -/
inductive Reply where
  | nothing
  | loaded (r : LoadResult)
  | stepped (r : StepResult)
  | tone (boundary : Bool)
  | frame (fb : Screen) (redraw : Bool)
deriving DecidableEq, Repr

/-- One interface operation: an atomic transaction on the state (20_memory.md R48, R50). -/
def perform (o : Op) (s : State) : Host.Outcome (State × Reply) Fault Refusal :=
  match o with
  | .initialise => .next (s.initialise, .nothing)
  | .loadProgram bytes => .next ((s.loadProgram bytes).1, .loaded (s.loadProgram bytes).2)
  | .step =>
    match step s with
    | .next t => .next (t, .stepped (stepResult s t))
    | .fault r => .fault r
    | .refused r => .refused r
  | .tickTimers => .next (s.tickTimers.1, .tone s.tickTimers.2)
  | .keyPress k => .next (s.keyPress k, .nothing)
  | .keyRelease k => .next (s.keyRelease k, .nothing)
  | .readFramebuffer => .next (s, .frame s.fb s.redraw)
  | .consumeRedraw => .next (s.consumeRedraw, .nothing)

/-- A finite schedule: the operations in the order in which the host invokes them, each on exactly the state that the
one before it left (20_memory.md R50, R51), with what each hands back. Any list is a possible schedule. -/
def performAll : List Op → State → Host.Outcome (State × List Reply) Fault Refusal
  | [], s => .next (s, [])
  | o :: os, s =>
    match perform o s with
    | .next (t, r) =>
      match performAll os t with
      | .next (u, rs) => .next (u, r :: rs)
      | .fault f => .fault f
      | .refused f => .refused f
    | .fault f => .fault f
    | .refused f => .refused f

end Sys2Proof.Machine
end

