-- ==== Sys2Proof/Safety.lean ====
section
/-! DEFINITION. The terms that claims are stated in: which part of the state an instruction may change, when a fault
is raised, what a clean run is, the invariant of every run, and a balanced stretch of a run. -/

namespace Sys2Proof.Machine

/-! ## Frames -/

/-- The parts of the state (10_state.md R10, and the model's own `draws`). -/
inductive Part where
  | mem | regs | i | pc | stack | dt | st | fb | redraw | keys | wait | fault | unknownSeen | draws
deriving DecidableEq, Repr

/-- Part `p` is the same in `t` as in `s`; memory and screen through the reads of one byte and of one cell. -/
def Keeps (p : Part) (s t : State) : Prop :=
  match p with
  | .mem => ∀ a, t.mem.readByte a = s.mem.readByte a
  | .regs => ∀ r, t.reg r = s.reg r
  | .i => t.i = s.i
  | .pc => t.pc = s.pc
  | .stack => t.sp = s.sp ∧ t.stack = s.stack
  | .dt => t.dt = s.dt
  | .st => t.st = s.st
  | .fb => ∀ j, t.fb.cell j = s.fb.cell j
  | .redraw => t.redraw = s.redraw
  | .keys => t.keys = s.keys
  | .wait => t.wait = s.wait
  | .fault => t.fault = s.fault
  | .unknownSeen => t.unknownSeen = s.unknownSeen
  | .draws => t.draws = s.draws

/-- Every part outside the list is the same in `t` as in `s`. -/
def KeepsAllBut (changed : List Part) (s t : State) : Prop := ∀ p, p ∉ changed → Keeps p s t

/-- Every register outside the list is the same in `t` as in `s`. -/
def KeepsRegsBut (written : List Nibble) (s t : State) : Prop := ∀ r, r ∉ written → t.reg r = s.reg r

/-- Every byte of memory outside the `n` bytes from address `a` reads the same in `t` as in `s`. -/
def KeepsMemBut (a n : Nat) (s t : State) : Prop :=
  ∀ b, b < a ∨ a + n ≤ b → t.mem.readByte b = s.mem.readByte b

/-- A fatal condition of kind `k` was taken: the latch records it and nothing else changed (60_exceptions.md R157). -/
def TakesFault (k : FatalKind) (s t : State) : Prop := t.fault = some k ∧ KeepsAllBut [.fault] s t

/-! ## When an instruction faults (60_exceptions.md R150 to R153) -/

/-- The fatal condition that an instruction raises in a state, if any: the "raised by" and "when" columns of R150, with
the exact conditions of R153. -/
def fatalCondition (i : Instr) (s : State) : Option FatalKind :=
  match i with
  | .call _ => if s.sp.val = 16 then some .stackOverflow else none
  | .ret => if s.sp.val = 0 then some .stackUnderflow else none
  | .drw _ _ n => if 1 ≤ n.toNat ∧ s.i.toNat + n.toNat - 1 > 0xFFF then some .memoryFault else none
  | .ldB _ => if s.i.toNat + 2 > 0xFFF then some .memoryFault else none
  | .storeRegs x => if s.i.toNat + x.toNat > 0xFFF then some .memoryFault else none
  | .loadRegs x => if s.i.toNat + x.toNat > 0xFFF then some .memoryFault else none
  | _ => none

/-! ## What an instruction may write -/

/-- The registers an instruction may write: its named destination, VF for the six flag writers (10_state.md R13), and
V0 to Vx for LD Vx,[I] (44_keys_timers_memory.md R141). -/
def destinations (i : Instr) : List Nibble :=
  match i with
  | .ldImm x _ | .addImm x _ | .ldReg x _ | .orReg x _ | .andReg x _ | .xorReg x _ | .rnd x _ | .ldVxDt x => [x]
  | .addReg x _ | .subReg x _ | .subnReg x _ | .shr x | .shl x => [x, 15]
  | .drw _ _ _ => [15]
  | .loadRegs x => (List.range (x.toNat + 1)).map (BitVec.ofNat 4)
  | .cls | .ret | .jp _ | .call _ | .seImm _ _ | .sneImm _ _ | .seReg _ _ | .sneReg _ _ | .jpV0 _ => []
  | .ldI _ | .addI _ | .ldF _ | .ldB _ | .storeRegs _ => []
  | .skp _ | .sknp _ | .ldVxK _ | .ldDtVx _ | .ldStVx _ => []

/-- The instructions that store to memory (20_memory.md R49). -/
def isStore (i : Instr) : Bool :=
  match i with
  | .ldB _ | .storeRegs _ => true
  | _ => false

/-- The instructions that write the screen (10_state.md R20). -/
def isDraw (i : Instr) : Bool :=
  match i with
  | .cls | .drw _ _ _ => true
  | _ => false

/-- The instructions that read the key state (10_state.md R22). -/
def isKeySkip (i : Instr) : Bool :=
  match i with
  | .skp _ | .sknp _ => true
  | _ => false

/-- The sprite bit that DRW Vx,Vy,n puts on the pixel in column `px` and row `py`, false where the sprite does not
reach: row `r` of the sprite is the byte at `I + r`, and its bit 7 is the leftmost pixel (43_graphics.md R121, R122). -/
def spriteBit (s : State) (x y n : Nibble) (px py : Nat) : Bool :=
  decide ((s.reg x).toNat ≤ px) && decide (px < (s.reg x).toNat + 8) &&
  decide ((s.reg y).toNat ≤ py) && decide (py < (s.reg y).toNat + n.toNat) &&
  (s.mem.readByte (s.i.toNat + (py - (s.reg y).toNat))).getLsbD (7 - (px - (s.reg x).toNat))

/-- The pressed keys hold the index that register `x` names; no index above 15 is held (44_keys_timers_memory.md
R142). -/
def NamesPressedKey (s : State) (x : Nibble) : Prop :=
  ∃ k : Fin 16, k.val = (s.reg x).toNat ∧ s.keys[k] = true

/-! ## Runs -/

/-- A run of the CORE under the infinite schedule `ops` (20_memory.md R51: any interleaving of the operations is a
possible run): the host's first operation is `initialize()` (10_state.md R30), on any state, and each operation acts on
exactly the state that the one before it left (R50). The finite runs are the schedules of `performAll` that begin with
`initialize()`. -/
structure IsRun (ops : Nat → Op) (states : Nat → State) (replies : Nat → Reply) : Prop where
  first : ops 0 = .initialise
  follows : ∀ n, perform (ops n) (states n) = .next (states (n + 1), replies n)

/-- No fatal condition has happened and no unknown word has been met: what 93_implementation_defined.md U3 and U5 ask of
the end of a successful run. -/
def Clean (s : State) : Prop := s.fault = none ∧ s.unknownSeen = false

/-- The invariant of every run: memory is canonical (the model's form of it, log 19); the pc keeps the range of 10_state.md R17; a saved pc is the
address of a CALL that was fetched (R17), and so is the pc during a wait, of an LD Vx,K; a faulted core is not in a wait
(60_exceptions.md R159). -/
structure Inv (s : State) : Prop where
  memCanonical : s.mem.wf
  pcRange : s.pc.toNat ≤ 0x10FE
  savedPcRange : ∀ j : Fin 16, j.val < s.sp.val → s.stack[j].toNat ≤ 0xFFE
  waitPcRange : s.wait ≠ .running → s.pc.toNat ≤ 0xFFE
  faultedNotWaiting : s.fault ≠ none → s.wait = .running

/-- A run of steps from `s` to `t` in which the stack depth is never below `d`: the body of a subroutine entered at
depth `d`, whose own calls and returns are balanced (41_control_flow.md R98). -/
inductive RunsAtDepth (d : Nat) : State → State → Prop where
  | refl (s : State) : d ≤ s.sp.val → RunsAtDepth d s s
  | step (s t u : State) : d ≤ s.sp.val → step s = .next t → RunsAtDepth d t u → RunsAtDepth d s u

/-- Two states that agree on everything but what no instruction reads: `ST` (R19), the redraw flag (R21), the diagnostic
bit (R25), and the stack entries at index `sp` and above (R18). -/
structure SameProgramView (s t : State) : Prop where
  mem : s.mem = t.mem
  v : s.v = t.v
  i : s.i = t.i
  pc : s.pc = t.pc
  sp : s.sp = t.sp
  saved : ∀ j : Fin 16, j.val < s.sp.val → s.stack[j] = t.stack[j]
  dt : s.dt = t.dt
  fb : s.fb = t.fb
  keys : s.keys = t.keys
  wait : s.wait = t.wait
  fault : s.fault = t.fault
  draws : s.draws = t.draws

end Sys2Proof.Machine
end

