-- ==== Sys2Proof/Certificates/Slice0/Obligations.lean ====
section
/-! DEFINITION. The statements about the CORE, each from the numbered rules of spec/ its docstring names. "Model's choice"
or a decision D<n> / general knowledge G<n> of the spec is named where a statement rests on one. -/

open Sys2Proof Sys2Proof.Machine

/-! ## Encoding -/

/-- 30_encoding.md R61, R62, R65 (word patterns from general knowledge, G2, log 4): no bit of an operand is lost between
the encoder and the decoder, for every instruction and every value of its operands, as a word and as bytes. -/
def Obligations.EncodeThenDecodeIsIdentity : Prop :=
  ∀ i : Instr, decode (encode i) = some i ∧ decodeBytes (encodeBytes i) = .instr i []

/-- R62, R65, R67, R68 (patterns: G2, log 4; the ignored nibble: D9, log 10): every word of every row of the opcode map,
written as its fields, decodes to the row's instruction, whatever the ignored bits are. -/
def Obligations.EveryWordPatternDecodes : Prop :=
  decode 0x00E0 = some .cls ∧ decode 0x00EE = some .ret ∧
  (∀ nnn : Addr12, decode (0x1#4 ++ nnn) = some (.jp nnn) ∧ decode (0x2#4 ++ nnn) = some (.call nnn) ∧
    decode (0xA#4 ++ nnn) = some (.ldI nnn) ∧ decode (0xB#4 ++ nnn) = some (.jpV0 nnn)) ∧
  (∀ (x : Nibble) (nn : Byte), decode (0x3#4 ++ x ++ nn) = some (.seImm x nn) ∧
    decode (0x4#4 ++ x ++ nn) = some (.sneImm x nn) ∧ decode (0x6#4 ++ x ++ nn) = some (.ldImm x nn) ∧
    decode (0x7#4 ++ x ++ nn) = some (.addImm x nn) ∧ decode (0xC#4 ++ x ++ nn) = some (.rnd x nn)) ∧
  (∀ x y n : Nibble, decode (0x5#4 ++ x ++ y ++ n) = some (.seReg x y) ∧
    decode (0x9#4 ++ x ++ y ++ n) = some (.sneReg x y) ∧ decode (0xD#4 ++ x ++ y ++ n) = some (.drw x y n)) ∧
  (∀ x y : Nibble, decode (0x8#4 ++ x ++ y ++ 0x0#4) = some (.ldReg x y) ∧
    decode (0x8#4 ++ x ++ y ++ 0x1#4) = some (.orReg x y) ∧ decode (0x8#4 ++ x ++ y ++ 0x2#4) = some (.andReg x y) ∧
    decode (0x8#4 ++ x ++ y ++ 0x3#4) = some (.xorReg x y) ∧ decode (0x8#4 ++ x ++ y ++ 0x4#4) = some (.addReg x y) ∧
    decode (0x8#4 ++ x ++ y ++ 0x5#4) = some (.subReg x y) ∧ decode (0x8#4 ++ x ++ y ++ 0x6#4) = some (.shr x) ∧
    decode (0x8#4 ++ x ++ y ++ 0x7#4) = some (.subnReg x y) ∧ decode (0x8#4 ++ x ++ y ++ 0xE#4) = some (.shl x)) ∧
  (∀ x : Nibble, decode (0xE#4 ++ x ++ 0x9E#8) = some (.skp x) ∧ decode (0xE#4 ++ x ++ 0xA1#8) = some (.sknp x) ∧
    decode (0xF#4 ++ x ++ 0x07#8) = some (.ldVxDt x) ∧ decode (0xF#4 ++ x ++ 0x0A#8) = some (.ldVxK x) ∧
    decode (0xF#4 ++ x ++ 0x15#8) = some (.ldDtVx x) ∧ decode (0xF#4 ++ x ++ 0x18#8) = some (.ldStVx x) ∧
    decode (0xF#4 ++ x ++ 0x1E#8) = some (.addI x) ∧ decode (0xF#4 ++ x ++ 0x29#8) = some (.ldF x) ∧
    decode (0xF#4 ++ x ++ 0x33#8) = some (.ldB x) ∧ decode (0xF#4 ++ x ++ 0x55#8) = some (.storeRegs x) ∧
    decode (0xF#4 ++ x ++ 0x65#8) = some (.loadRegs x))

/-- R66, R68, R69, R70, R71: the words that decode are exactly the legal ones, as `legalWord` transcribes those rules.
Which secondary opcodes of families 8, E and F exist is the spec's general knowledge (G2, log 4), that every 5XYn and
9XYn is an instruction its decision D9 (log 10), that family 0 is exact its decision D8. -/
def Obligations.DecodableWordsAreTheLegalWords : Prop := ∀ w : Word, (decode w).isSome = legalWord w

/-- R65 (patterns and masks of the rows: G2, log 4; the masks F000 of rows 7 and 19, which ignore the low nibble: D9,
log 10): the 34 rows are pairwise disjoint, and a word that decodes is selected by the row of its instruction. -/
def Obligations.OpcodeRowsAreDisjointAndSelectTheDecode : Prop :=
  (∀ (w : Word) (r r' : OpcodeRow), r ∈ opcodeMap → r' ∈ opcodeMap → r.selects w = true → r'.selects w = true → r = r') ∧
  ∀ (w : Word) (i : Instr), decode w = some i → i.row ∈ opcodeMap ∧ i.row.selects w = true

/-- 95_test_vectors.md E10: the five instruction words that the source itself shows. -/
def Obligations.SourceExampleWordsDecode : Prop :=
  decode 0x6005 = some (.ldImm 0 5) ∧ decode 0x6105 = some (.ldImm 1 5) ∧ decode 0x8014 = some (.addReg 0 1) ∧
  decode 0x1200 = some (.jp 0x200) ∧ decode 0xF00A = some (.ldVxK 0)

/-! ## The step cycle -/

/-- 20_memory.md R46: the fetched word has the byte at the pc as its high byte and the byte after it as its low byte. -/
def Obligations.FetchIsBigEndian : Prop :=
  ∀ s : State, s.pc.toNat ≤ 0xFFE →
    ∃ w, s.fetch16? = some w ∧
      w.toNat = 256 * (s.mem.readByte s.pc.toNat).toNat + (s.mem.readByte (s.pc.toNat + 1)).toNat

/-- 40_step_cycle.md R80 cases 4 to 6: with no latched fault and no wait, when the two bytes at the pc decode to an
instruction, the step is that instruction's meaning in the same state: nothing is added around it, and the pc during it
is its own address (10_state.md R15). -/
def Obligations.StepRunsTheDecodedInstruction : Prop :=
  ∀ (s : State) (i : Instr), s.fault = none → s.wait = .running → s.pc.toNat ≤ 0xFFE →
    decodeBytes [s.mem.readByte s.pc.toNat, s.mem.readByte (s.pc.toNat + 1)] = .instr i [] → step s = exec i s

/-- R80 cases 1 and 2, R24, R171 (the latch: D6, log 17): a faulted or waiting core steps idly, with no state change. -/
def Obligations.StepIsIdleWhileStopped : Prop :=
  ∀ s : State, (s.fault ≠ none ∨ ∃ x, s.wait = .awaitingKey x) →
    step s = .next s ∧ perform .step s = .next (s, .stepped .idle)

/-- R80 case 3, 44_keys_timers_memory.md R133 (completion at the next step: C4): the step after the press writes the
key index, advances the pc by 2, ends the wait, and does nothing else. -/
def Obligations.StepCompletesTheKeyWait : Prop :=
  ∀ (s : State) (x k : Nibble), s.fault = none → s.wait = .keyLatched x k →
    ∃ t, step s = .next t ∧ perform .step s = .next (t, .stepped .ok) ∧ (t.reg x).toNat = k.toNat ∧
      t.pc = s.pc + 2 ∧ t.wait = .running ∧ KeepsRegsBut [x] s t ∧ KeepsAllBut [.regs, .pc, .wait] s t

/-- R83 (the reporting channel: D7, log 17): a word that matches no row sets the diagnostic bit, advances the pc by 2,
changes nothing else, and is reported with the address it came from. -/
def Obligations.StepReportsAnUnknownWord : Prop :=
  ∀ (s : State) (w : Word), s.fault = none → s.wait = .running → s.pc.toNat ≤ 0xFFE →
    decodeBytes [s.mem.readByte s.pc.toNat, s.mem.readByte (s.pc.toNat + 1)] = .unknownOpcode w →
    ∃ t, perform .step s = .next (t, .stepped (.unknownOpcode w s.pc)) ∧ t.unknownSeen = true ∧ t.pc = s.pc + 2 ∧
      KeepsAllBut [.pc, .unknownSeen] s t

/-- R81, 60_exceptions.md R153, R156 (D4; the latch and a fault as a next state: D6, log 17): a fetch above 0xFFE
takes `MemoryFault`, with the pc left at the address that could not be fetched. -/
def Obligations.FetchOutsideMemoryTakesMemoryFault : Prop :=
  ∀ s : State, s.fault = none → s.wait = .running → 0xFFE < s.pc.toNat →
    ∃ t, perform .step s = .next (t, .stepped (.fault .memoryFault)) ∧ TakesFault .memoryFault s t

/-- 40_step_cycle.md R86 and the note that ends 93_implementation_defined.md section 1: every instruction and every
step answers a next state in every state; the model neither stops nor refuses. That a fatal condition is a next state
with the latch set is the spec's decision D6, log 17. -/
def Obligations.EveryStepAnswersANextState : Prop :=
  (∀ (i : Instr) (s : State), ∃ t, exec i s = .next t) ∧ ∀ s : State, ∃ t, step s = .next t

/-- R85 (D6, D7, log 17): what each StepResult says of the state change. -/
def Obligations.StepResultSaysWhatChanged : Prop :=
  ∀ (s t : State) (r : StepResult), perform .step s = .next (t, .stepped r) →
    match r with
    | .idle => t = s ∧ (s.fault ≠ none ∨ ∃ x, s.wait = .awaitingKey x)
    | .ok => s.fault = none ∧ t.fault = none ∧ t.unknownSeen = s.unknownSeen
    | .unknownOpcode w a => a = s.pc ∧ s.fetch16? = some w ∧ decode w = none ∧ t.unknownSeen = true ∧
        t.pc = s.pc + 2 ∧ KeepsAllBut [.pc, .unknownSeen] s t
    | .fault k => s.fault = none ∧ TakesFault k s t

/-! ## Faults -/

/-- R84, 60_exceptions.md R150, R153, R157 (D5; the latch: D6, log 17): an instruction faults exactly under the
condition the spec lists for it, and then the latch is all that changes; under no other condition does it touch the
latch. -/
def Obligations.FatalConditionsAreExactAndPrecise : Prop :=
  ∀ (i : Instr) (s : State),
    (fatalCondition i s = none → ∃ t, exec i s = .next t ∧ t.fault = s.fault) ∧
    ∀ k, fatalCondition i s = some k → ∃ t, exec i s = .next t ∧ TakesFault k s t

/-- 60_exceptions.md R151, R152: a CALL on a full stack and a RET on an empty one set the latch and change nothing
else. That a fatal condition is a next state with the latch set, and nothing but the latch changed, is the spec's
decisions D5 and D6, log 17. -/
def Obligations.StackFaultsChangeNothingElse : Prop :=
  (∀ (nnn : Addr12) (s : State), s.sp.val = 16 →
    ∃ t, exec (.call nnn) s = .next t ∧ TakesFault .stackOverflow s t) ∧
  ∀ s : State, s.sp.val = 0 → ∃ t, exec .ret s = .next t ∧ TakesFault .stackUnderflow s t

/-- 60_exceptions.md R158, R159 (D6, log 17): whatever the host does, a latched fault stays as it is until
`initialize()`. -/
def Obligations.OnlyInitialiseEndsAFault : Prop :=
  ∀ (o : Op) (s t : State) (r : Reply) (k : FatalKind), s.fault = some k → perform o s = .next (t, r) →
    (o = .initialise → t.fault = none) ∧ (o ≠ .initialise → t.fault = some k)

/-! ## Control transfer -/

/-- 41_control_flow.md R90, where it does not fault (the fault: `StackFaultsChangeNothingElse`): pops the newest saved
value, and resumes two bytes after it; the older saved values stay. -/
def Obligations.RetResumesAfterTheSavedAddress : Prop :=
  ∀ s : State, 0 < s.sp.val →
    ∃ t, exec .ret s = .next t ∧ t.sp.val + 1 = s.sp.val ∧
      (∀ j : Fin 16, j.val = t.sp.val → t.pc = s.stack[j] + 2) ∧
      (∀ j : Fin 16, j.val < t.sp.val → t.stack[j] = s.stack[j]) ∧ KeepsAllBut [.stack, .pc] s t

/-- R91: the word 1NNN (shown by the source's 1200) is the jump, and the pc becomes the zero-extended operand. -/
def Obligations.JpSetsThePc : Prop :=
  ∀ (nnn : Addr12) (s : State), decode (0x1#4 ++ nnn) = some (.jp nnn) ∧
    ∃ t, exec (.jp nnn) s = .next t ∧ t.pc.toNat = nnn.toNat ∧ KeepsAllBut [.pc] s t

/-- R92, where it does not fault: pushes the address of the CALL itself, then jumps. -/
def Obligations.CallPushesItsOwnAddress : Prop :=
  ∀ (nnn : Addr12) (s : State), s.sp.val < 16 →
    ∃ t, exec (.call nnn) s = .next t ∧ t.sp.val = s.sp.val + 1 ∧ t.pc.toNat = nnn.toNat ∧
      (∀ j : Fin 16, j.val = s.sp.val → t.stack[j] = s.pc) ∧
      (∀ j : Fin 16, j.val < s.sp.val → t.stack[j] = s.stack[j]) ∧ KeepsAllBut [.stack, .pc] s t

/-- R98 (its condition marked there as derived), for a whole subroutine: after a CALL, any run of steps that never
goes below the depth the CALL left and ends at that depth is followed by a RET that restores the call site plus 2 and
the depth from before the CALL. Only `step` is invoked in the body (log 16). -/
def Obligations.BalancedSubroutineReturnsAfterTheCall : Prop :=
  ∀ (nnn : Addr12) (s t u : State), s.sp.val < 16 → exec (.call nnn) s = .next t → RunsAtDepth t.sp.val t u →
    u.sp = t.sp → ∃ v, exec .ret u = .next v ∧ v.pc = s.pc + 2 ∧ v.sp = s.sp

/-- R93, R94, R95, R96: the four register skips add 4 to the pc when their condition holds and 2 when it does not, and
write nothing else. -/
def Obligations.RegisterSkipsMoveThePc : Prop :=
  (∀ (x : Nibble) (nn : Byte) (s : State), ∃ t, exec (.seImm x nn) s = .next t ∧
    t.pc = (if s.reg x = nn then s.pc + 4 else s.pc + 2) ∧ KeepsAllBut [.pc] s t) ∧
  (∀ (x : Nibble) (nn : Byte) (s : State), ∃ t, exec (.sneImm x nn) s = .next t ∧
    t.pc = (if s.reg x = nn then s.pc + 2 else s.pc + 4) ∧ KeepsAllBut [.pc] s t) ∧
  (∀ (x y : Nibble) (s : State), ∃ t, exec (.seReg x y) s = .next t ∧
    t.pc = (if s.reg x = s.reg y then s.pc + 4 else s.pc + 2) ∧ KeepsAllBut [.pc] s t) ∧
  ∀ (x y : Nibble) (s : State), ∃ t, exec (.sneReg x y) s = .next t ∧
    t.pc = (if s.reg x = s.reg y then s.pc + 2 else s.pc + 4) ∧ KeepsAllBut [.pc] s t

/-- R97 (from general knowledge, G4, D24, log 5): the pc becomes the unmasked sum of the operand and V0. -/
def Obligations.IndexedJumpAddsV0 : Prop :=
  ∀ (nnn : Addr12) (s : State), ∃ t, exec (.jpV0 nnn) s = .next t ∧
    t.pc.toNat = nnn.toNat + (s.reg 0).toNat ∧ KeepsAllBut [.pc] s t

/-- 70_reset_and_hazards.md R192: a jump to its own address leaves the whole state as it is, at every later step. The
runs are those of `Sys2Proof.core`, in which the host invokes nothing but `step` (model's choice, log 16): the ticks
and key events that R192 excepts are not in them. -/
def Obligations.SelfJumpStays : Prop :=
  ∀ (s : State) (nnn : Addr12), s.fault = none → s.wait = .running → s.fetch16? = some (encode (.jp nnn)) →
    s.pc.toNat = nnn.toNat → ∀ n, Sys2Proof.core.run n s = .next s

/-! ## Registers and ALU -/

/-- 42_alu.md R100: the word 6XNN (shown by the source's 6005 and 6105) loads the immediate. -/
def Obligations.LoadImmediateWritesTheByte : Prop :=
  ∀ (x : Nibble) (nn : Byte) (s : State), decode (0x6#4 ++ x ++ nn) = some (.ldImm x nn) ∧
    ∃ t, exec (.ldImm x nn) s = .next t ∧ t.reg x = nn ∧ t.pc = s.pc + 2 ∧ KeepsRegsBut [x] s t ∧
      KeepsAllBut [.regs, .pc] s t

/-- R101, R112: the immediate is added modulo 256, and VF is not written unless it is the destination. -/
def Obligations.AddImmediateWrapsWithoutFlag : Prop :=
  ∀ (x : Nibble) (nn : Byte) (s : State), ∃ t, exec (.addImm x nn) s = .next t ∧
    (t.reg x).toNat = ((s.reg x).toNat + nn.toNat) % 256 ∧ t.pc = s.pc + 2 ∧ KeepsRegsBut [x] s t ∧
    KeepsAllBut [.regs, .pc] s t

/-- R102, R103, R104, R105: copy, or, and, exclusive or; VF is not written unless it is the destination. -/
def Obligations.CopyAndLogicWriteOnlyTheDestination : Prop :=
  ∀ (x y : Nibble) (s : State),
    (∃ t, exec (.ldReg x y) s = .next t ∧ t.reg x = s.reg y ∧ t.pc = s.pc + 2 ∧ KeepsRegsBut [x] s t ∧
      KeepsAllBut [.regs, .pc] s t) ∧
    (∃ t, exec (.orReg x y) s = .next t ∧ t.reg x = s.reg x ||| s.reg y ∧ t.pc = s.pc + 2 ∧ KeepsRegsBut [x] s t ∧
      KeepsAllBut [.regs, .pc] s t) ∧
    (∃ t, exec (.andReg x y) s = .next t ∧ t.reg x = s.reg x &&& s.reg y ∧ t.pc = s.pc + 2 ∧ KeepsRegsBut [x] s t ∧
      KeepsAllBut [.regs, .pc] s t) ∧
    ∃ t, exec (.xorReg x y) s = .next t ∧ t.reg x = s.reg x ^^^ s.reg y ∧ t.pc = s.pc + 2 ∧ KeepsRegsBut [x] s t ∧
      KeepsAllBut [.regs, .pc] s t

/-- R106: the word 8XY4 (shown by the source's 8014) adds; the sum modulo 256 goes to Vx and the carry to VF, last: with
`x = 15` VF holds the carry (R113; the order is the spec's decision D19, log 9). -/
def Obligations.AddSetsTheCarry : Prop :=
  ∀ (x y : Nibble) (s : State), decode (0x8#4 ++ x ++ y ++ 0x4#4) = some (.addReg x y) ∧
    ∃ t, exec (.addReg x y) s = .next t ∧
      (x ≠ 15 → (t.reg x).toNat = ((s.reg x).toNat + (s.reg y).toNat) % 256) ∧
      (t.reg 15).toNat = (if 255 < (s.reg x).toNat + (s.reg y).toNat then 1 else 0) ∧
      t.pc = s.pc + 2 ∧ KeepsRegsBut [x, 15] s t ∧ KeepsAllBut [.regs, .pc] s t

/-- R107, R109, R113 (which sub-opcode is which: G2, log 4; the flag last: D19, log 9): both subtractions give the
difference modulo 256 and VF 1 exactly when the minuend is at least the subtrahend. -/
def Obligations.SubtractionsSetTheNotBorrow : Prop :=
  ∀ (x y : Nibble) (s : State),
    (∃ t, exec (.subReg x y) s = .next t ∧
      (x ≠ 15 → ((t.reg x).toNat : Int) = ((s.reg x).toNat - (s.reg y).toNat : Int) % 256) ∧
      (t.reg 15).toNat = (if (s.reg y).toNat ≤ (s.reg x).toNat then 1 else 0) ∧
      t.pc = s.pc + 2 ∧ KeepsRegsBut [x, 15] s t ∧ KeepsAllBut [.regs, .pc] s t) ∧
    ∃ t, exec (.subnReg x y) s = .next t ∧
      (x ≠ 15 → ((t.reg x).toNat : Int) = ((s.reg y).toNat - (s.reg x).toNat : Int) % 256) ∧
      (t.reg 15).toNat = (if (s.reg x).toNat ≤ (s.reg y).toNat then 1 else 0) ∧
      t.pc = s.pc + 2 ∧ KeepsRegsBut [x, 15] s t ∧ KeepsAllBut [.regs, .pc] s t

/-- R108, R110, R113 (D19, log 9): the shifts move Vx by one bit and give VF the bit shifted out, taken before the
shift. -/
def Obligations.ShiftsSetTheShiftedOutBit : Prop :=
  ∀ (x : Nibble) (s : State),
    (∃ t, exec (.shr x) s = .next t ∧ (x ≠ 15 → (t.reg x).toNat = (s.reg x).toNat / 2) ∧
      (t.reg 15).toNat = (s.reg x).toNat % 2 ∧ t.pc = s.pc + 2 ∧ KeepsRegsBut [x, 15] s t ∧
      KeepsAllBut [.regs, .pc] s t) ∧
    ∃ t, exec (.shl x) s = .next t ∧ (x ≠ 15 → (t.reg x).toNat = 2 * (s.reg x).toNat % 256) ∧
      (t.reg 15).toNat = (s.reg x).toNat / 128 ∧ t.pc = s.pc + 2 ∧ KeepsRegsBut [x, 15] s t ∧
      KeepsAllBut [.regs, .pc] s t

/-- R111 (the free byte: D18; its form, a constant without a body applied to a counter, is the model's choice, log 1):
the destination is the drawn byte under the mask, whatever that byte is, and the next draw is another one. -/
def Obligations.RandomByteIsMasked : Prop :=
  ∀ (x : Nibble) (nn : Byte) (s : State), ∃ t, exec (.rnd x nn) s = .next t ∧
    t.reg x = Config.rndByte s.draws &&& nn ∧ t.draws = s.draws + 1 ∧ t.pc = s.pc + 2 ∧ KeepsRegsBut [x] s t ∧
    KeepsAllBut [.regs, .pc, .draws] s t

/-- 10_state.md R12, R13: no instruction writes a register but its destinations: the register it names, V0 to Vx of a
block load, and VF in the six flag writers. -/
def Obligations.OnlyDestinationsAreWritten : Prop :=
  ∀ (i : Instr) (s t : State) (r : Nibble), exec i s = .next t → r ∉ destinations i → t.reg r = s.reg r

/-! ## Graphics -/

/-- 43_graphics.md R120: every cell unlit, the redraw flag set; VF is not written. -/
def Obligations.ClsBlanksTheScreen : Prop :=
  ∀ s : State, ∃ t, exec .cls s = .next t ∧ (∀ j, j < 2048 → t.fb.cell j = false) ∧ t.redraw = true ∧
    t.pc = s.pc + 2 ∧ KeepsAllBut [.fb, .redraw, .pc] s t

/-- R121, R122, R123, R125 (bit 7 leftmost: G7, log 6; no anchor wrap: D10, log 11; operands read before VF is
written, and VF last: D19, log 9): where the sprite lies in memory or has no rows, every pixel is XORed with the
sprite bit that falls on it, VF is 1 exactly when a set bit fell on a lit pixel, else 0, and the redraw flag is set.
-/
def Obligations.DrwXorsTheSpriteOntoTheScreen : Prop :=
  ∀ (x y n : Nibble) (s : State), (n.toNat = 0 ∨ s.i.toNat + n.toNat - 1 ≤ 0xFFF) →
    ∃ t, exec (.drw x y n) s = .next t ∧
      (∀ px py, px < 64 → py < 32 →
        t.fb.cell (py * 64 + px) = (s.fb.cell (py * 64 + px) ^^ spriteBit s x y n px py)) ∧
      ((∃ px py, px < 64 ∧ py < 32 ∧ spriteBit s x y n px py = true ∧ s.fb.cell (py * 64 + px) = true) →
        t.reg 15 = 1) ∧
      ((¬∃ px py, px < 64 ∧ py < 32 ∧ spriteBit s x y n px py = true ∧ s.fb.cell (py * 64 + px) = true) →
        t.reg 15 = 0) ∧
      t.redraw = true ∧ t.pc = s.pc + 2 ∧ KeepsRegsBut [15] s t ∧ KeepsAllBut [.fb, .regs, .redraw, .pc] s t

/-- R124 (D11, D12; the fault as a next state with the latch set: D6, log 17): a sprite with rows that runs past 0xFFF
takes `MemoryFault` and draws nothing, also where the rows would be clipped; with no rows DRW never faults, whatever I
holds, and draws nothing. -/
def Obligations.DrwChecksTheWholeSprite : Prop :=
  (∀ (x y n : Nibble) (s : State), 1 ≤ n.toNat → 0xFFF < s.i.toNat + n.toNat - 1 →
    ∃ t, exec (.drw x y n) s = .next t ∧ TakesFault .memoryFault s t) ∧
  ∀ (x y : Nibble) (s : State), ∃ t, exec (.drw x y 0) s = .next t ∧ t.reg 15 = 0 ∧ t.redraw = true ∧
    t.pc = s.pc + 2 ∧ KeepsRegsBut [15] s t ∧ KeepsAllBut [.regs, .redraw, .pc] s t

/-- R126 (marked there as derived; C8): after the same sprite is drawn again at the same place (the same bytes, index
and anchor, whatever happened to the rest of the state), every pixel is as before the first draw, and where the sprite
lies in memory the second draw's VF is 1 exactly when a set bit of the first landed on an unlit pixel. Where a bit
lands is `spriteBit`'s: bit 7 leftmost (G7, log 6), the anchor not wrapped (D10, log 11). -/
def Obligations.DrawingTwiceRestoresTheScreen : Prop :=
  ∀ (x y n : Nibble) (s t t' u : State), exec (.drw x y n) s = .next t → t'.fb = t.fb → t'.i = s.i →
    (∀ a, t'.mem.readByte a = s.mem.readByte a) → t'.reg x = s.reg x → t'.reg y = s.reg y →
    exec (.drw x y n) t' = .next u →
    (∀ j, u.fb.cell j = s.fb.cell j) ∧
    ((n.toNat = 0 ∨ s.i.toNat + n.toNat - 1 ≤ 0xFFF) →
      (u.reg 15 = 1 ↔
        ∃ px py, px < 64 ∧ py < 32 ∧ spriteBit s x y n px py = true ∧ s.fb.cell (py * 64 + px) = false))

/-- 10_state.md R20, R21: no instruction but CLS and DRW writes the screen or the redraw flag, and no instruction clears
that flag. -/
def Obligations.OnlyClsAndDrwWriteTheScreen : Prop :=
  ∀ (i : Instr) (s t : State), exec i s = .next t →
    (isDraw i = false → t.fb = s.fb ∧ t.redraw = s.redraw) ∧ (s.redraw = true → t.redraw = true)

/-! ## Keys and timers -/

/-- 44_keys_timers_memory.md R130, R131, R142 (an index above 15 is not pressed: D14, log 13): SKP skips exactly when the
key that Vx names is pressed, SKNP exactly when it is not, and neither changes anything but the pc. -/
def Obligations.KeySkipsReadTheKeyState : Prop :=
  ∀ (x : Nibble) (s : State),
    (∃ t, exec (.skp x) s = .next t ∧ (NamesPressedKey s x → t.pc = s.pc + 4) ∧
      (¬NamesPressedKey s x → t.pc = s.pc + 2) ∧ KeepsAllBut [.pc] s t) ∧
    ∃ t, exec (.sknp x) s = .next t ∧ (NamesPressedKey s x → t.pc = s.pc + 2) ∧
      (¬NamesPressedKey s x → t.pc = s.pc + 4) ∧ KeepsAllBut [.pc] s t

/-- R133, first row: LD Vx,K begins the wait, and neither the pc nor a register changes, whatever keys are held (D15). -/
def Obligations.KeyWaitBegins : Prop :=
  ∀ (x : Nibble) (s : State), ∃ t, exec (.ldVxK x) s = .next t ∧ t.wait = .awaitingKey x ∧ KeepsAllBut [.wait] s t

/-- R133, the rest of its table (D15: the first press wins, releases and held keys do not count): how each operation
moves a pending wait. The conjunct about a step that completes the wait asks for no latched fault, which
`StepKeepsTheInvariant` shows no waiting core has. -/
def Obligations.KeyWaitEndsByAPressThenAStep : Prop :=
  ∀ (o : Op) (s t : State) (r : Reply), perform o s = .next (t, r) →
    (∀ x, s.wait = .awaitingKey x →
      match o with
      | .initialise => t.wait = .running
      | .keyPress k => t.wait = .keyLatched x k
      | _ => t.wait = .awaitingKey x) ∧
    (∀ x k, s.wait = .keyLatched x k →
      match o with
      | .initialise => t.wait = .running
      | .step => s.fault = none → t.wait = .running
      | _ => t.wait = .keyLatched x k)

/-- R132, R134, R135: the timer moves. -/
def Obligations.TimerMovesCopyTheByte : Prop :=
  ∀ (x : Nibble) (s : State),
    (∃ t, exec (.ldVxDt x) s = .next t ∧ t.reg x = s.dt ∧ t.pc = s.pc + 2 ∧ KeepsRegsBut [x] s t ∧
      KeepsAllBut [.regs, .pc] s t) ∧
    (∃ t, exec (.ldDtVx x) s = .next t ∧ t.dt = s.reg x ∧ t.pc = s.pc + 2 ∧ KeepsAllBut [.dt, .pc] s t) ∧
    ∃ t, exec (.ldStVx x) s = .next t ∧ t.st = s.reg x ∧ t.pc = s.pc + 2 ∧ KeepsAllBut [.st, .pc] s t

/-- 40_step_cycle.md R87: DT and ST change only by LD DT,Vx, by LD ST,Vx, and by `tickTimers` (and by the reset, 10_state.md
R28); any other step or operation leaves them. -/
def Obligations.TimersChangeOnlyByTheirWriters : Prop :=
  ∀ (o : Op) (s t : State) (r : Reply), perform o s = .next (t, r) → o ≠ .tickTimers → o ≠ .initialise →
    (t.dt ≠ s.dt → o = .step ∧ ∃ x, phase s = .run (.ldDtVx x)) ∧
    (t.st ≠ s.st → o = .step ∧ ∃ x, phase s = .run (.ldStVx x))

/-! ## Index register and memory block -/

/-- R136 (G4, log 5), R137 (ADD I,Vx wraps modulo 65536 and never faults: D3, log 8; no flag: D25, log 14), R138 (low
nibble: D13, log 12): the three writers of I other than the block transfers. -/
def Obligations.IndexRegisterWrites : Prop :=
  (∀ (nnn : Addr12) (s : State), ∃ t, exec (.ldI nnn) s = .next t ∧ t.i.toNat = nnn.toNat ∧ t.pc = s.pc + 2 ∧
    KeepsAllBut [.i, .pc] s t) ∧
  (∀ (x : Nibble) (s : State), ∃ t, exec (.addI x) s = .next t ∧
    t.i.toNat = (s.i.toNat + (s.reg x).toNat) % 65536 ∧ t.pc = s.pc + 2 ∧ KeepsAllBut [.i, .pc] s t) ∧
  ∀ (x : Nibble) (s : State), ∃ t, exec (.ldF x) s = .next t ∧ t.i.toNat = 5 * ((s.reg x).toNat % 16) ∧
    t.pc = s.pc + 2 ∧ KeepsAllBut [.i, .pc] s t

/-- R139: the three digits go to I, I+1, I+2, and no other byte changes, also below 0x200, since no part of memory is
write-protected (D17, log 15); where the three bytes do not lie in memory, `MemoryFault` and nothing else (a next
state with the latch set: D6, log 17). -/
def Obligations.BcdStoresThreeDigits : Prop :=
  ∀ (x : Nibble) (s : State),
    (s.i.toNat + 2 ≤ 0xFFF → ∃ t, exec (.ldB x) s = .next t ∧
      (t.mem.readByte s.i.toNat).toNat = (s.reg x).toNat / 100 ∧
      (t.mem.readByte (s.i.toNat + 1)).toNat = (s.reg x).toNat / 10 % 10 ∧
      (t.mem.readByte (s.i.toNat + 2)).toNat = (s.reg x).toNat % 10 ∧
      t.pc = s.pc + 2 ∧ KeepsMemBut s.i.toNat 3 s t ∧ KeepsAllBut [.mem, .pc] s t) ∧
    (0xFFF < s.i.toNat + 2 → ∃ t, exec (.ldB x) s = .next t ∧ TakesFault .memoryFault s t)

/-- R140: V0 to Vx go to I up, I advances by x+1, and no other byte changes, also below 0x200, since no part of memory
is write-protected (D17, log 15); where the range does not lie in memory, `MemoryFault` and nothing else (a next state
with the latch set: D6, log 17). -/
def Obligations.BlockStoreWritesTheRange : Prop :=
  ∀ (x : Nibble) (s : State),
    (s.i.toNat + x.toNat ≤ 0xFFF → ∃ t, exec (.storeRegs x) s = .next t ∧
      (∀ r : Nibble, r.toNat ≤ x.toNat → t.mem.readByte (s.i.toNat + r.toNat) = s.reg r) ∧
      t.i.toNat = s.i.toNat + x.toNat + 1 ∧ t.pc = s.pc + 2 ∧ KeepsMemBut s.i.toNat (x.toNat + 1) s t ∧
      KeepsAllBut [.mem, .i, .pc] s t) ∧
    (0xFFF < s.i.toNat + x.toNat → ∃ t, exec (.storeRegs x) s = .next t ∧ TakesFault .memoryFault s t)

/-- R141: V0 to Vx come from I up, I advances by x+1, and no other register changes; where the range does not lie in
memory, `MemoryFault` and nothing else (a next state with the latch set: D6, log 17). -/
def Obligations.BlockLoadReadsTheRange : Prop :=
  ∀ (x : Nibble) (s : State),
    (s.i.toNat + x.toNat ≤ 0xFFF → ∃ t, exec (.loadRegs x) s = .next t ∧
      (∀ r : Nibble, r.toNat ≤ x.toNat → t.reg r = s.mem.readByte (s.i.toNat + r.toNat)) ∧
      (∀ r : Nibble, x.toNat < r.toNat → t.reg r = s.reg r) ∧
      t.i.toNat = s.i.toNat + x.toNat + 1 ∧ t.pc = s.pc + 2 ∧ KeepsAllBut [.regs, .i, .pc] s t) ∧
    (0xFFF < s.i.toNat + x.toNat → ∃ t, exec (.loadRegs x) s = .next t ∧ TakesFault .memoryFault s t)

/-- R141, "Round trip": a block store, then a block load of the same range from the same starting index in a state
with any registers, gives back the registers stored, and I ends each time at the start plus x+1. That this holds below
0x200 too rests on no part of memory being write-protected (D17, log 15). -/
def Obligations.BlockStoreThenLoadRoundTrips : Prop :=
  ∀ (x : Nibble) (s t t' u : State), s.i.toNat + x.toNat ≤ 0xFFF → exec (.storeRegs x) s = .next t → t'.i = s.i →
    (∀ a, t'.mem.readByte a = t.mem.readByte a) → exec (.loadRegs x) t' = .next u →
    (∀ r : Nibble, r.toNat ≤ x.toNat → u.reg r = s.reg r) ∧ t.i.toNat = s.i.toNat + x.toNat + 1 ∧ u.i = t.i

/-- 20_memory.md R52 (marked there as derived), R47: self-modifying code needs no fence. Where a block store writes
`V[r]` and `V[r+1]` over the two bytes of the next instruction, the very next fetch gets them, `V[r]` as the high
byte. That this holds below 0x200 too rests on no part of memory being write-protected (D17, log 15). -/
def Obligations.BlockStoreIsSeenByTheNextFetch : Prop :=
  ∀ (x r : Nibble) (s t : State), s.i.toNat + x.toNat ≤ 0xFFF → r.toNat + 1 ≤ x.toNat →
    s.pc.toNat + 2 = s.i.toNat + r.toNat → exec (.storeRegs x) s = .next t →
    ∃ w, t.fetch16? = some w ∧ w.toNat = 256 * (s.reg r).toNat + (s.reg (r + 1)).toNat

/-- 20_memory.md R49: no instruction but LD B,Vx and LD [I],Vx changes memory, as data and so in every byte. -/
def Obligations.OnlyTwoInstructionsStore : Prop :=
  ∀ (i : Instr) (s t : State), exec i s = .next t → isStore i = false → t.mem = s.mem

/-- 20_memory.md R40 in the model's form of memory (model's choice, log 19): canonical memories that read alike are equal
data. -/
def Obligations.CanonicalMemoriesThatReadAlikeAreEqual : Prop :=
  ∀ m m' : Memory, m.wf → m'.wf → (∀ a, m.readByte a = m'.readByte a) → m = m'

/-! ## The key state and what a program cannot see -/

/-- 10_state.md R22: only `keyPress` and `keyRelease` change the key state (no instruction does, nor `initialize()`), and
no instruction but SKP and SKNP reads it, LD Vx,K included: changing the keys changes nothing else in what it does. -/
def Obligations.KeyStateIsWrittenByTheAdapterAndReadByTheSkips : Prop :=
  (∀ (o : Op) (s t : State) (r : Reply), perform o s = .next (t, r) → t.keys ≠ s.keys →
    ∃ k, o = .keyPress k ∨ o = .keyRelease k) ∧
  ∀ (i : Instr) (s t : State) (ks : Vector Bool 16), isKeySkip i = false → exec i s = .next t →
    exec i { s with keys := ks } = .next { t with keys := ks }

/-- R18, R19, R21, R25: ST, the redraw flag, the diagnostic bit and the popped stack entries are read by no step: two
states that differ only in those step to states that differ only in those, with the same StepResult. -/
def Obligations.UnreadStateNeverAffectsAStep : Prop :=
  ∀ s t s' t' : State, SameProgramView s t → step s = .next s' → step t = .next t' →
    SameProgramView s' t' ∧ stepResult s s' = stepResult t t'

/-! ## Reset and host operations -/

/-- 10_state.md R28 (fb, redraw, keys, fault, unknown_seen: D16, D6, D7; font bytes: D30, log 3; keys 0 at creation: R30,
log 7): the state after `initialize()`. -/
def Obligations.ResetValues : Prop :=
  (∀ a, a < 80 → State.reset.mem.readByte a = font.getD a 0) ∧ font.length = 80 ∧
  (∀ a, 80 ≤ a → State.reset.mem.readByte a = 0) ∧ (∀ r, State.reset.reg r = 0) ∧ State.reset.i = 0 ∧
  State.reset.pc = 0x200 ∧ State.reset.sp = 0 ∧ (∀ j : Fin 16, State.reset.stack[j] = 0) ∧ State.reset.dt = 0 ∧
  State.reset.st = 0 ∧ State.reset.wait = .running ∧ (∀ j, State.reset.fb.cell j = false) ∧
  State.reset.redraw = true ∧ (∀ j : Fin 16, State.reset.keys[j] = false) ∧ State.reset.fault = none ∧
  State.reset.unknownSeen = false

/-- 10_state.md R29, with R28's exception for the keys: `initialize()` brings any state to the reset state with its own
keys (and the model's counter, log 2), hands nothing back, and a second call changes nothing. -/
def Obligations.InitialiseIsIdempotentReset : Prop :=
  ∀ s : State, ∃ t, perform .initialise s = .next (t, .nothing) ∧ perform .initialise t = .next (t, .nothing) ∧
    t.keys = s.keys ∧ KeepsAllBut [.keys, .draws] State.reset t

/-- 70_reset_and_hazards.md R182, R183, 10_state.md R31: an image of at most 3583 bytes is copied to 0x200 up and
nothing else changes; a longer one is rejected and nothing changes. -/
def Obligations.LoadProgramCopiesOrRejects : Prop :=
  ∀ (bytes : List Byte) (s : State),
    (0x200 + bytes.length ≤ 0xFFF → ∃ t, perform (.loadProgram bytes) s = .next (t, .loaded .ok) ∧
      (∀ j, ∀ h : j < bytes.length, t.mem.readByte (0x200 + j) = bytes[j]) ∧
      KeepsMemBut 0x200 bytes.length s t ∧ KeepsAllBut [.mem] s t) ∧
    (0xFFF < 0x200 + bytes.length → perform (.loadProgram bytes) s = .next (s, .loaded .outOfBounds))

/-- 60_exceptions.md R165, R166 (in every state of the wait and the latch: D22): each timer counts down by one and
stays at 0; the tone boundary is reported in exactly the tick that takes ST from 1 to 0; nothing else changes. -/
def Obligations.TickTimersCountsDown : Prop :=
  ∀ s : State, ∃ t b, perform .tickTimers s = .next (t, .tone b) ∧ t.dt.toNat = s.dt.toNat - 1 ∧
    t.st.toNat = s.st.toNat - 1 ∧ (b = true ↔ s.st.toNat = 1 ∧ t.st.toNat = 0) ∧ KeepsAllBut [.dt, .st] s t

/-- 60_exceptions.md R163, R164: a press sets the key and is latched by a pending wait; a release clears the key; nothing
else changes. -/
def Obligations.KeyPressAndReleaseSetTheKey : Prop :=
  ∀ (k : Nibble) (s : State),
    (∃ t, perform (.keyPress k) s = .next (t, .nothing) ∧
      (∀ j : Fin 16, t.keys[j] = (if j.val = k.toNat then true else s.keys[j])) ∧
      (∀ x, s.wait = .awaitingKey x → t.wait = .keyLatched x k) ∧
      ((∀ x, s.wait ≠ .awaitingKey x) → t.wait = s.wait) ∧ KeepsAllBut [.keys, .wait] s t) ∧
    ∃ t, perform (.keyRelease k) s = .next (t, .nothing) ∧
      (∀ j : Fin 16, t.keys[j] = (if j.val = k.toNat then false else s.keys[j])) ∧ KeepsAllBut [.keys] s t

/-- 60_exceptions.md R167: reading the framebuffer changes nothing and hands back the screen and the flag; consuming the
flag clears it and nothing else. -/
def Obligations.RendererReadsAndConsumes : Prop :=
  ∀ s : State, perform .readFramebuffer s = .next (s, .frame s.fb s.redraw) ∧
    ∃ t, perform .consumeRedraw s = .next (t, .nothing) ∧ t.redraw = false ∧ KeepsAllBut [.redraw] s t

/-! ## The invariant -/

/-- The invariant `Inv` holds after reset: the ranges of 10_state.md R17, no faulted core waiting (60_exceptions.md
R159), and memory in the model's canonical form (model's choice, log 19). -/
def Obligations.ResetMeetsTheInvariant : Prop := Inv State.reset

/-- R17, R159: every step keeps the invariant: memory in the model's canonical form (model's choice, log 19), the pc
at most 0x10FE, every saved pc at most 0xFFE, the pc of a waiting core at most 0xFFE, and no faulted core waiting. -/
def Obligations.StepKeepsTheInvariant : Prop := ∀ s t : State, Inv s → step s = .next t → Inv t

/-- R17, R159, 20_memory.md R51: every operation of the host other than `step` keeps the invariant; so every finite
schedule of operations, from a state that meets it, answers a state that meets it, and it holds after every operation
of every run, whatever the interleaving. Memory in the model's canonical form is the model's choice (log 19); that the
operations are serialised and a run begins with `initialize()` is R51 and R30 (log 16, log 7). -/
def Obligations.HostOperationsKeepTheInvariant : Prop :=
  (∀ (o : Op) (s t : State) (r : Reply), o ≠ .step → Inv s → perform o s = .next (t, r) → Inv t) ∧
  (∀ (os : List Op) (s : State), Inv s → ∃ t rs, performAll os s = .next (t, rs) ∧ Inv t) ∧
  ∀ (ops : Nat → Op) (states : Nat → State) (replies : Nat → Reply), IsRun ops states replies →
    ∀ n, Inv (states (n + 1))
end

