-- ==== Sys2Proof/Laws/State.lean ====
section
/-! SUPPORT. One lemma per field per update of the state, each true by unfolding the update once; the reads of a register
after each update; the initialised state; extensionality. -/

namespace Sys2Proof.Machine

/-! ### State.setReg -/

@[simp] theorem State.setReg_mem (s : State) (r : Nibble) (b : Byte) : (s.setReg r b).mem = s.mem := rfl
@[simp] theorem State.setReg_v (s : State) (r : Nibble) (b : Byte) : (s.setReg r b).v = s.v.set r.toNat b r.isLt := rfl
@[simp] theorem State.setReg_i (s : State) (r : Nibble) (b : Byte) : (s.setReg r b).i = s.i := rfl
@[simp] theorem State.setReg_pc (s : State) (r : Nibble) (b : Byte) : (s.setReg r b).pc = s.pc := rfl
@[simp] theorem State.setReg_stack (s : State) (r : Nibble) (b : Byte) : (s.setReg r b).stack = s.stack := rfl
@[simp] theorem State.setReg_sp (s : State) (r : Nibble) (b : Byte) : (s.setReg r b).sp = s.sp := rfl
@[simp] theorem State.setReg_dt (s : State) (r : Nibble) (b : Byte) : (s.setReg r b).dt = s.dt := rfl
@[simp] theorem State.setReg_st (s : State) (r : Nibble) (b : Byte) : (s.setReg r b).st = s.st := rfl
@[simp] theorem State.setReg_fb (s : State) (r : Nibble) (b : Byte) : (s.setReg r b).fb = s.fb := rfl
@[simp] theorem State.setReg_redraw (s : State) (r : Nibble) (b : Byte) : (s.setReg r b).redraw = s.redraw := rfl
@[simp] theorem State.setReg_keys (s : State) (r : Nibble) (b : Byte) : (s.setReg r b).keys = s.keys := rfl
@[simp] theorem State.setReg_wait (s : State) (r : Nibble) (b : Byte) : (s.setReg r b).wait = s.wait := rfl
@[simp] theorem State.setReg_fault (s : State) (r : Nibble) (b : Byte) : (s.setReg r b).fault = s.fault := rfl
@[simp] theorem State.setReg_unknownSeen (s : State) (r : Nibble) (b : Byte) : (s.setReg r b).unknownSeen = s.unknownSeen := rfl
@[simp] theorem State.setReg_draws (s : State) (r : Nibble) (b : Byte) : (s.setReg r b).draws = s.draws := rfl

/-! ### State.setI -/

@[simp] theorem State.setI_mem (s : State) (w : Word) : (s.setI w).mem = s.mem := rfl
@[simp] theorem State.setI_v (s : State) (w : Word) : (s.setI w).v = s.v := rfl
@[simp] theorem State.setI_i (s : State) (w : Word) : (s.setI w).i = w := rfl
@[simp] theorem State.setI_pc (s : State) (w : Word) : (s.setI w).pc = s.pc := rfl
@[simp] theorem State.setI_stack (s : State) (w : Word) : (s.setI w).stack = s.stack := rfl
@[simp] theorem State.setI_sp (s : State) (w : Word) : (s.setI w).sp = s.sp := rfl
@[simp] theorem State.setI_dt (s : State) (w : Word) : (s.setI w).dt = s.dt := rfl
@[simp] theorem State.setI_st (s : State) (w : Word) : (s.setI w).st = s.st := rfl
@[simp] theorem State.setI_fb (s : State) (w : Word) : (s.setI w).fb = s.fb := rfl
@[simp] theorem State.setI_redraw (s : State) (w : Word) : (s.setI w).redraw = s.redraw := rfl
@[simp] theorem State.setI_keys (s : State) (w : Word) : (s.setI w).keys = s.keys := rfl
@[simp] theorem State.setI_wait (s : State) (w : Word) : (s.setI w).wait = s.wait := rfl
@[simp] theorem State.setI_fault (s : State) (w : Word) : (s.setI w).fault = s.fault := rfl
@[simp] theorem State.setI_unknownSeen (s : State) (w : Word) : (s.setI w).unknownSeen = s.unknownSeen := rfl
@[simp] theorem State.setI_draws (s : State) (w : Word) : (s.setI w).draws = s.draws := rfl
@[simp] theorem State.setI_reg (s : State) (w : Word) (q : Nibble) : (s.setI w).reg q = s.reg q := rfl

/-! ### State.jumpTo -/

@[simp] theorem State.jumpTo_mem (s : State) (w : Word) : (s.jumpTo w).mem = s.mem := rfl
@[simp] theorem State.jumpTo_v (s : State) (w : Word) : (s.jumpTo w).v = s.v := rfl
@[simp] theorem State.jumpTo_i (s : State) (w : Word) : (s.jumpTo w).i = s.i := rfl
@[simp] theorem State.jumpTo_pc (s : State) (w : Word) : (s.jumpTo w).pc = w := rfl
@[simp] theorem State.jumpTo_stack (s : State) (w : Word) : (s.jumpTo w).stack = s.stack := rfl
@[simp] theorem State.jumpTo_sp (s : State) (w : Word) : (s.jumpTo w).sp = s.sp := rfl
@[simp] theorem State.jumpTo_dt (s : State) (w : Word) : (s.jumpTo w).dt = s.dt := rfl
@[simp] theorem State.jumpTo_st (s : State) (w : Word) : (s.jumpTo w).st = s.st := rfl
@[simp] theorem State.jumpTo_fb (s : State) (w : Word) : (s.jumpTo w).fb = s.fb := rfl
@[simp] theorem State.jumpTo_redraw (s : State) (w : Word) : (s.jumpTo w).redraw = s.redraw := rfl
@[simp] theorem State.jumpTo_keys (s : State) (w : Word) : (s.jumpTo w).keys = s.keys := rfl
@[simp] theorem State.jumpTo_wait (s : State) (w : Word) : (s.jumpTo w).wait = s.wait := rfl
@[simp] theorem State.jumpTo_fault (s : State) (w : Word) : (s.jumpTo w).fault = s.fault := rfl
@[simp] theorem State.jumpTo_unknownSeen (s : State) (w : Word) : (s.jumpTo w).unknownSeen = s.unknownSeen := rfl
@[simp] theorem State.jumpTo_draws (s : State) (w : Word) : (s.jumpTo w).draws = s.draws := rfl
@[simp] theorem State.jumpTo_reg (s : State) (w : Word) (q : Nibble) : (s.jumpTo w).reg q = s.reg q := rfl

/-! ### State.advance -/

@[simp] theorem State.advance_mem (s : State) : (s.advance).mem = s.mem := rfl
@[simp] theorem State.advance_v (s : State) : (s.advance).v = s.v := rfl
@[simp] theorem State.advance_i (s : State) : (s.advance).i = s.i := rfl
@[simp] theorem State.advance_pc (s : State) : (s.advance).pc = s.pc + 2 := rfl
@[simp] theorem State.advance_stack (s : State) : (s.advance).stack = s.stack := rfl
@[simp] theorem State.advance_sp (s : State) : (s.advance).sp = s.sp := rfl
@[simp] theorem State.advance_dt (s : State) : (s.advance).dt = s.dt := rfl
@[simp] theorem State.advance_st (s : State) : (s.advance).st = s.st := rfl
@[simp] theorem State.advance_fb (s : State) : (s.advance).fb = s.fb := rfl
@[simp] theorem State.advance_redraw (s : State) : (s.advance).redraw = s.redraw := rfl
@[simp] theorem State.advance_keys (s : State) : (s.advance).keys = s.keys := rfl
@[simp] theorem State.advance_wait (s : State) : (s.advance).wait = s.wait := rfl
@[simp] theorem State.advance_fault (s : State) : (s.advance).fault = s.fault := rfl
@[simp] theorem State.advance_unknownSeen (s : State) : (s.advance).unknownSeen = s.unknownSeen := rfl
@[simp] theorem State.advance_draws (s : State) : (s.advance).draws = s.draws := rfl
@[simp] theorem State.advance_reg (s : State) (q : Nibble) : (s.advance).reg q = s.reg q := rfl

/-! ### State.skipIf -/

@[simp] theorem State.skipIf_mem (s : State) (c : Bool) : (s.skipIf c).mem = s.mem := rfl
@[simp] theorem State.skipIf_v (s : State) (c : Bool) : (s.skipIf c).v = s.v := rfl
@[simp] theorem State.skipIf_i (s : State) (c : Bool) : (s.skipIf c).i = s.i := rfl
@[simp] theorem State.skipIf_pc (s : State) (c : Bool) : (s.skipIf c).pc = if c then s.pc + 4 else s.pc + 2 := rfl
@[simp] theorem State.skipIf_stack (s : State) (c : Bool) : (s.skipIf c).stack = s.stack := rfl
@[simp] theorem State.skipIf_sp (s : State) (c : Bool) : (s.skipIf c).sp = s.sp := rfl
@[simp] theorem State.skipIf_dt (s : State) (c : Bool) : (s.skipIf c).dt = s.dt := rfl
@[simp] theorem State.skipIf_st (s : State) (c : Bool) : (s.skipIf c).st = s.st := rfl
@[simp] theorem State.skipIf_fb (s : State) (c : Bool) : (s.skipIf c).fb = s.fb := rfl
@[simp] theorem State.skipIf_redraw (s : State) (c : Bool) : (s.skipIf c).redraw = s.redraw := rfl
@[simp] theorem State.skipIf_keys (s : State) (c : Bool) : (s.skipIf c).keys = s.keys := rfl
@[simp] theorem State.skipIf_wait (s : State) (c : Bool) : (s.skipIf c).wait = s.wait := rfl
@[simp] theorem State.skipIf_fault (s : State) (c : Bool) : (s.skipIf c).fault = s.fault := rfl
@[simp] theorem State.skipIf_unknownSeen (s : State) (c : Bool) : (s.skipIf c).unknownSeen = s.unknownSeen := rfl
@[simp] theorem State.skipIf_draws (s : State) (c : Bool) : (s.skipIf c).draws = s.draws := rfl
@[simp] theorem State.skipIf_reg (s : State) (c : Bool) (q : Nibble) : (s.skipIf c).reg q = s.reg q := rfl

/-! ### State.store -/

@[simp] theorem State.store_mem (s : State) (a : Nat) (bs : List Byte) : (s.store a bs).mem = s.mem.writeBytes a bs := rfl
@[simp] theorem State.store_v (s : State) (a : Nat) (bs : List Byte) : (s.store a bs).v = s.v := rfl
@[simp] theorem State.store_i (s : State) (a : Nat) (bs : List Byte) : (s.store a bs).i = s.i := rfl
@[simp] theorem State.store_pc (s : State) (a : Nat) (bs : List Byte) : (s.store a bs).pc = s.pc := rfl
@[simp] theorem State.store_stack (s : State) (a : Nat) (bs : List Byte) : (s.store a bs).stack = s.stack := rfl
@[simp] theorem State.store_sp (s : State) (a : Nat) (bs : List Byte) : (s.store a bs).sp = s.sp := rfl
@[simp] theorem State.store_dt (s : State) (a : Nat) (bs : List Byte) : (s.store a bs).dt = s.dt := rfl
@[simp] theorem State.store_st (s : State) (a : Nat) (bs : List Byte) : (s.store a bs).st = s.st := rfl
@[simp] theorem State.store_fb (s : State) (a : Nat) (bs : List Byte) : (s.store a bs).fb = s.fb := rfl
@[simp] theorem State.store_redraw (s : State) (a : Nat) (bs : List Byte) : (s.store a bs).redraw = s.redraw := rfl
@[simp] theorem State.store_keys (s : State) (a : Nat) (bs : List Byte) : (s.store a bs).keys = s.keys := rfl
@[simp] theorem State.store_wait (s : State) (a : Nat) (bs : List Byte) : (s.store a bs).wait = s.wait := rfl
@[simp] theorem State.store_fault (s : State) (a : Nat) (bs : List Byte) : (s.store a bs).fault = s.fault := rfl
@[simp] theorem State.store_unknownSeen (s : State) (a : Nat) (bs : List Byte) : (s.store a bs).unknownSeen = s.unknownSeen := rfl
@[simp] theorem State.store_draws (s : State) (a : Nat) (bs : List Byte) : (s.store a bs).draws = s.draws := rfl
@[simp] theorem State.store_reg (s : State) (a : Nat) (bs : List Byte) (q : Nibble) : (s.store a bs).reg q = s.reg q := rfl

/-! ### State.setDt -/

@[simp] theorem State.setDt_mem (s : State) (b : Byte) : (s.setDt b).mem = s.mem := rfl
@[simp] theorem State.setDt_v (s : State) (b : Byte) : (s.setDt b).v = s.v := rfl
@[simp] theorem State.setDt_i (s : State) (b : Byte) : (s.setDt b).i = s.i := rfl
@[simp] theorem State.setDt_pc (s : State) (b : Byte) : (s.setDt b).pc = s.pc := rfl
@[simp] theorem State.setDt_stack (s : State) (b : Byte) : (s.setDt b).stack = s.stack := rfl
@[simp] theorem State.setDt_sp (s : State) (b : Byte) : (s.setDt b).sp = s.sp := rfl
@[simp] theorem State.setDt_dt (s : State) (b : Byte) : (s.setDt b).dt = b := rfl
@[simp] theorem State.setDt_st (s : State) (b : Byte) : (s.setDt b).st = s.st := rfl
@[simp] theorem State.setDt_fb (s : State) (b : Byte) : (s.setDt b).fb = s.fb := rfl
@[simp] theorem State.setDt_redraw (s : State) (b : Byte) : (s.setDt b).redraw = s.redraw := rfl
@[simp] theorem State.setDt_keys (s : State) (b : Byte) : (s.setDt b).keys = s.keys := rfl
@[simp] theorem State.setDt_wait (s : State) (b : Byte) : (s.setDt b).wait = s.wait := rfl
@[simp] theorem State.setDt_fault (s : State) (b : Byte) : (s.setDt b).fault = s.fault := rfl
@[simp] theorem State.setDt_unknownSeen (s : State) (b : Byte) : (s.setDt b).unknownSeen = s.unknownSeen := rfl
@[simp] theorem State.setDt_draws (s : State) (b : Byte) : (s.setDt b).draws = s.draws := rfl
@[simp] theorem State.setDt_reg (s : State) (b : Byte) (q : Nibble) : (s.setDt b).reg q = s.reg q := rfl

/-! ### State.setSt -/

@[simp] theorem State.setSt_mem (s : State) (b : Byte) : (s.setSt b).mem = s.mem := rfl
@[simp] theorem State.setSt_v (s : State) (b : Byte) : (s.setSt b).v = s.v := rfl
@[simp] theorem State.setSt_i (s : State) (b : Byte) : (s.setSt b).i = s.i := rfl
@[simp] theorem State.setSt_pc (s : State) (b : Byte) : (s.setSt b).pc = s.pc := rfl
@[simp] theorem State.setSt_stack (s : State) (b : Byte) : (s.setSt b).stack = s.stack := rfl
@[simp] theorem State.setSt_sp (s : State) (b : Byte) : (s.setSt b).sp = s.sp := rfl
@[simp] theorem State.setSt_dt (s : State) (b : Byte) : (s.setSt b).dt = s.dt := rfl
@[simp] theorem State.setSt_st (s : State) (b : Byte) : (s.setSt b).st = b := rfl
@[simp] theorem State.setSt_fb (s : State) (b : Byte) : (s.setSt b).fb = s.fb := rfl
@[simp] theorem State.setSt_redraw (s : State) (b : Byte) : (s.setSt b).redraw = s.redraw := rfl
@[simp] theorem State.setSt_keys (s : State) (b : Byte) : (s.setSt b).keys = s.keys := rfl
@[simp] theorem State.setSt_wait (s : State) (b : Byte) : (s.setSt b).wait = s.wait := rfl
@[simp] theorem State.setSt_fault (s : State) (b : Byte) : (s.setSt b).fault = s.fault := rfl
@[simp] theorem State.setSt_unknownSeen (s : State) (b : Byte) : (s.setSt b).unknownSeen = s.unknownSeen := rfl
@[simp] theorem State.setSt_draws (s : State) (b : Byte) : (s.setSt b).draws = s.draws := rfl
@[simp] theorem State.setSt_reg (s : State) (b : Byte) (q : Nibble) : (s.setSt b).reg q = s.reg q := rfl

/-! ### State.paint -/

@[simp] theorem State.paint_mem (s : State) (g : Screen) : (s.paint g).mem = s.mem := rfl
@[simp] theorem State.paint_v (s : State) (g : Screen) : (s.paint g).v = s.v := rfl
@[simp] theorem State.paint_i (s : State) (g : Screen) : (s.paint g).i = s.i := rfl
@[simp] theorem State.paint_pc (s : State) (g : Screen) : (s.paint g).pc = s.pc := rfl
@[simp] theorem State.paint_stack (s : State) (g : Screen) : (s.paint g).stack = s.stack := rfl
@[simp] theorem State.paint_sp (s : State) (g : Screen) : (s.paint g).sp = s.sp := rfl
@[simp] theorem State.paint_dt (s : State) (g : Screen) : (s.paint g).dt = s.dt := rfl
@[simp] theorem State.paint_st (s : State) (g : Screen) : (s.paint g).st = s.st := rfl
@[simp] theorem State.paint_fb (s : State) (g : Screen) : (s.paint g).fb = g := rfl
@[simp] theorem State.paint_redraw (s : State) (g : Screen) : (s.paint g).redraw = true := rfl
@[simp] theorem State.paint_keys (s : State) (g : Screen) : (s.paint g).keys = s.keys := rfl
@[simp] theorem State.paint_wait (s : State) (g : Screen) : (s.paint g).wait = s.wait := rfl
@[simp] theorem State.paint_fault (s : State) (g : Screen) : (s.paint g).fault = s.fault := rfl
@[simp] theorem State.paint_unknownSeen (s : State) (g : Screen) : (s.paint g).unknownSeen = s.unknownSeen := rfl
@[simp] theorem State.paint_draws (s : State) (g : Screen) : (s.paint g).draws = s.draws := rfl
@[simp] theorem State.paint_reg (s : State) (g : Screen) (q : Nibble) : (s.paint g).reg q = s.reg q := rfl

/-! ### State.setRedraw -/

@[simp] theorem State.setRedraw_mem (s : State) (b : Bool) : (s.setRedraw b).mem = s.mem := rfl
@[simp] theorem State.setRedraw_v (s : State) (b : Bool) : (s.setRedraw b).v = s.v := rfl
@[simp] theorem State.setRedraw_i (s : State) (b : Bool) : (s.setRedraw b).i = s.i := rfl
@[simp] theorem State.setRedraw_pc (s : State) (b : Bool) : (s.setRedraw b).pc = s.pc := rfl
@[simp] theorem State.setRedraw_stack (s : State) (b : Bool) : (s.setRedraw b).stack = s.stack := rfl
@[simp] theorem State.setRedraw_sp (s : State) (b : Bool) : (s.setRedraw b).sp = s.sp := rfl
@[simp] theorem State.setRedraw_dt (s : State) (b : Bool) : (s.setRedraw b).dt = s.dt := rfl
@[simp] theorem State.setRedraw_st (s : State) (b : Bool) : (s.setRedraw b).st = s.st := rfl
@[simp] theorem State.setRedraw_fb (s : State) (b : Bool) : (s.setRedraw b).fb = s.fb := rfl
@[simp] theorem State.setRedraw_redraw (s : State) (b : Bool) : (s.setRedraw b).redraw = b := rfl
@[simp] theorem State.setRedraw_keys (s : State) (b : Bool) : (s.setRedraw b).keys = s.keys := rfl
@[simp] theorem State.setRedraw_wait (s : State) (b : Bool) : (s.setRedraw b).wait = s.wait := rfl
@[simp] theorem State.setRedraw_fault (s : State) (b : Bool) : (s.setRedraw b).fault = s.fault := rfl
@[simp] theorem State.setRedraw_unknownSeen (s : State) (b : Bool) : (s.setRedraw b).unknownSeen = s.unknownSeen := rfl
@[simp] theorem State.setRedraw_draws (s : State) (b : Bool) : (s.setRedraw b).draws = s.draws := rfl
@[simp] theorem State.setRedraw_reg (s : State) (b : Bool) (q : Nibble) : (s.setRedraw b).reg q = s.reg q := rfl

/-! ### State.setWait -/

@[simp] theorem State.setWait_mem (s : State) (w : Wait) : (s.setWait w).mem = s.mem := rfl
@[simp] theorem State.setWait_v (s : State) (w : Wait) : (s.setWait w).v = s.v := rfl
@[simp] theorem State.setWait_i (s : State) (w : Wait) : (s.setWait w).i = s.i := rfl
@[simp] theorem State.setWait_pc (s : State) (w : Wait) : (s.setWait w).pc = s.pc := rfl
@[simp] theorem State.setWait_stack (s : State) (w : Wait) : (s.setWait w).stack = s.stack := rfl
@[simp] theorem State.setWait_sp (s : State) (w : Wait) : (s.setWait w).sp = s.sp := rfl
@[simp] theorem State.setWait_dt (s : State) (w : Wait) : (s.setWait w).dt = s.dt := rfl
@[simp] theorem State.setWait_st (s : State) (w : Wait) : (s.setWait w).st = s.st := rfl
@[simp] theorem State.setWait_fb (s : State) (w : Wait) : (s.setWait w).fb = s.fb := rfl
@[simp] theorem State.setWait_redraw (s : State) (w : Wait) : (s.setWait w).redraw = s.redraw := rfl
@[simp] theorem State.setWait_keys (s : State) (w : Wait) : (s.setWait w).keys = s.keys := rfl
@[simp] theorem State.setWait_wait (s : State) (w : Wait) : (s.setWait w).wait = w := rfl
@[simp] theorem State.setWait_fault (s : State) (w : Wait) : (s.setWait w).fault = s.fault := rfl
@[simp] theorem State.setWait_unknownSeen (s : State) (w : Wait) : (s.setWait w).unknownSeen = s.unknownSeen := rfl
@[simp] theorem State.setWait_draws (s : State) (w : Wait) : (s.setWait w).draws = s.draws := rfl
@[simp] theorem State.setWait_reg (s : State) (w : Wait) (q : Nibble) : (s.setWait w).reg q = s.reg q := rfl

/-! ### State.setKey -/

@[simp] theorem State.setKey_mem (s : State) (k : Nibble) (b : Bool) : (s.setKey k b).mem = s.mem := rfl
@[simp] theorem State.setKey_v (s : State) (k : Nibble) (b : Bool) : (s.setKey k b).v = s.v := rfl
@[simp] theorem State.setKey_i (s : State) (k : Nibble) (b : Bool) : (s.setKey k b).i = s.i := rfl
@[simp] theorem State.setKey_pc (s : State) (k : Nibble) (b : Bool) : (s.setKey k b).pc = s.pc := rfl
@[simp] theorem State.setKey_stack (s : State) (k : Nibble) (b : Bool) : (s.setKey k b).stack = s.stack := rfl
@[simp] theorem State.setKey_sp (s : State) (k : Nibble) (b : Bool) : (s.setKey k b).sp = s.sp := rfl
@[simp] theorem State.setKey_dt (s : State) (k : Nibble) (b : Bool) : (s.setKey k b).dt = s.dt := rfl
@[simp] theorem State.setKey_st (s : State) (k : Nibble) (b : Bool) : (s.setKey k b).st = s.st := rfl
@[simp] theorem State.setKey_fb (s : State) (k : Nibble) (b : Bool) : (s.setKey k b).fb = s.fb := rfl
@[simp] theorem State.setKey_redraw (s : State) (k : Nibble) (b : Bool) : (s.setKey k b).redraw = s.redraw := rfl
@[simp] theorem State.setKey_keys (s : State) (k : Nibble) (b : Bool) : (s.setKey k b).keys = s.keys.set k.toNat b k.isLt := rfl
@[simp] theorem State.setKey_wait (s : State) (k : Nibble) (b : Bool) : (s.setKey k b).wait = s.wait := rfl
@[simp] theorem State.setKey_fault (s : State) (k : Nibble) (b : Bool) : (s.setKey k b).fault = s.fault := rfl
@[simp] theorem State.setKey_unknownSeen (s : State) (k : Nibble) (b : Bool) : (s.setKey k b).unknownSeen = s.unknownSeen := rfl
@[simp] theorem State.setKey_draws (s : State) (k : Nibble) (b : Bool) : (s.setKey k b).draws = s.draws := rfl
@[simp] theorem State.setKey_reg (s : State) (k : Nibble) (b : Bool) (q : Nibble) : (s.setKey k b).reg q = s.reg q := rfl

/-! ### State.markUnknown -/

@[simp] theorem State.markUnknown_mem (s : State) : (s.markUnknown).mem = s.mem := rfl
@[simp] theorem State.markUnknown_v (s : State) : (s.markUnknown).v = s.v := rfl
@[simp] theorem State.markUnknown_i (s : State) : (s.markUnknown).i = s.i := rfl
@[simp] theorem State.markUnknown_pc (s : State) : (s.markUnknown).pc = s.pc := rfl
@[simp] theorem State.markUnknown_stack (s : State) : (s.markUnknown).stack = s.stack := rfl
@[simp] theorem State.markUnknown_sp (s : State) : (s.markUnknown).sp = s.sp := rfl
@[simp] theorem State.markUnknown_dt (s : State) : (s.markUnknown).dt = s.dt := rfl
@[simp] theorem State.markUnknown_st (s : State) : (s.markUnknown).st = s.st := rfl
@[simp] theorem State.markUnknown_fb (s : State) : (s.markUnknown).fb = s.fb := rfl
@[simp] theorem State.markUnknown_redraw (s : State) : (s.markUnknown).redraw = s.redraw := rfl
@[simp] theorem State.markUnknown_keys (s : State) : (s.markUnknown).keys = s.keys := rfl
@[simp] theorem State.markUnknown_wait (s : State) : (s.markUnknown).wait = s.wait := rfl
@[simp] theorem State.markUnknown_fault (s : State) : (s.markUnknown).fault = s.fault := rfl
@[simp] theorem State.markUnknown_unknownSeen (s : State) : (s.markUnknown).unknownSeen = true := rfl
@[simp] theorem State.markUnknown_draws (s : State) : (s.markUnknown).draws = s.draws := rfl
@[simp] theorem State.markUnknown_reg (s : State) (q : Nibble) : (s.markUnknown).reg q = s.reg q := rfl

/-! ### State.drawn -/

@[simp] theorem State.drawn_mem (s : State) : (s.drawn).mem = s.mem := rfl
@[simp] theorem State.drawn_v (s : State) : (s.drawn).v = s.v := rfl
@[simp] theorem State.drawn_i (s : State) : (s.drawn).i = s.i := rfl
@[simp] theorem State.drawn_pc (s : State) : (s.drawn).pc = s.pc := rfl
@[simp] theorem State.drawn_stack (s : State) : (s.drawn).stack = s.stack := rfl
@[simp] theorem State.drawn_sp (s : State) : (s.drawn).sp = s.sp := rfl
@[simp] theorem State.drawn_dt (s : State) : (s.drawn).dt = s.dt := rfl
@[simp] theorem State.drawn_st (s : State) : (s.drawn).st = s.st := rfl
@[simp] theorem State.drawn_fb (s : State) : (s.drawn).fb = s.fb := rfl
@[simp] theorem State.drawn_redraw (s : State) : (s.drawn).redraw = s.redraw := rfl
@[simp] theorem State.drawn_keys (s : State) : (s.drawn).keys = s.keys := rfl
@[simp] theorem State.drawn_wait (s : State) : (s.drawn).wait = s.wait := rfl
@[simp] theorem State.drawn_fault (s : State) : (s.drawn).fault = s.fault := rfl
@[simp] theorem State.drawn_unknownSeen (s : State) : (s.drawn).unknownSeen = s.unknownSeen := rfl
@[simp] theorem State.drawn_draws (s : State) : (s.drawn).draws = s.draws + 1 := rfl
@[simp] theorem State.drawn_reg (s : State) (q : Nibble) : (s.drawn).reg q = s.reg q := rfl

/-! ### State.raise -/

@[simp] theorem State.raise_mem (s : State) (k : FatalKind) : (s.raise k).mem = s.mem := rfl
@[simp] theorem State.raise_v (s : State) (k : FatalKind) : (s.raise k).v = s.v := rfl
@[simp] theorem State.raise_i (s : State) (k : FatalKind) : (s.raise k).i = s.i := rfl
@[simp] theorem State.raise_pc (s : State) (k : FatalKind) : (s.raise k).pc = s.pc := rfl
@[simp] theorem State.raise_stack (s : State) (k : FatalKind) : (s.raise k).stack = s.stack := rfl
@[simp] theorem State.raise_sp (s : State) (k : FatalKind) : (s.raise k).sp = s.sp := rfl
@[simp] theorem State.raise_dt (s : State) (k : FatalKind) : (s.raise k).dt = s.dt := rfl
@[simp] theorem State.raise_st (s : State) (k : FatalKind) : (s.raise k).st = s.st := rfl
@[simp] theorem State.raise_fb (s : State) (k : FatalKind) : (s.raise k).fb = s.fb := rfl
@[simp] theorem State.raise_redraw (s : State) (k : FatalKind) : (s.raise k).redraw = s.redraw := rfl
@[simp] theorem State.raise_keys (s : State) (k : FatalKind) : (s.raise k).keys = s.keys := rfl
@[simp] theorem State.raise_wait (s : State) (k : FatalKind) : (s.raise k).wait = s.wait := rfl
@[simp] theorem State.raise_fault (s : State) (k : FatalKind) : (s.raise k).fault = some k := rfl
@[simp] theorem State.raise_unknownSeen (s : State) (k : FatalKind) : (s.raise k).unknownSeen = s.unknownSeen := rfl
@[simp] theorem State.raise_draws (s : State) (k : FatalKind) : (s.raise k).draws = s.draws := rfl
@[simp] theorem State.raise_reg (s : State) (k : FatalKind) (q : Nibble) : (s.raise k).reg q = s.reg q := rfl

/-! ### State.setFlag -/

@[simp] theorem State.setFlag_mem (s : State) (c : Bool) : (s.setFlag c).mem = s.mem := rfl
@[simp] theorem State.setFlag_i (s : State) (c : Bool) : (s.setFlag c).i = s.i := rfl
@[simp] theorem State.setFlag_pc (s : State) (c : Bool) : (s.setFlag c).pc = s.pc := rfl
@[simp] theorem State.setFlag_stack (s : State) (c : Bool) : (s.setFlag c).stack = s.stack := rfl
@[simp] theorem State.setFlag_sp (s : State) (c : Bool) : (s.setFlag c).sp = s.sp := rfl
@[simp] theorem State.setFlag_dt (s : State) (c : Bool) : (s.setFlag c).dt = s.dt := rfl
@[simp] theorem State.setFlag_st (s : State) (c : Bool) : (s.setFlag c).st = s.st := rfl
@[simp] theorem State.setFlag_fb (s : State) (c : Bool) : (s.setFlag c).fb = s.fb := rfl
@[simp] theorem State.setFlag_redraw (s : State) (c : Bool) : (s.setFlag c).redraw = s.redraw := rfl
@[simp] theorem State.setFlag_keys (s : State) (c : Bool) : (s.setFlag c).keys = s.keys := rfl
@[simp] theorem State.setFlag_wait (s : State) (c : Bool) : (s.setFlag c).wait = s.wait := rfl
@[simp] theorem State.setFlag_fault (s : State) (c : Bool) : (s.setFlag c).fault = s.fault := rfl
@[simp] theorem State.setFlag_unknownSeen (s : State) (c : Bool) : (s.setFlag c).unknownSeen = s.unknownSeen := rfl
@[simp] theorem State.setFlag_draws (s : State) (c : Bool) : (s.setFlag c).draws = s.draws := rfl

/-! ### State.setResult -/

@[simp] theorem State.setResult_mem (s : State) (x : Nibble) (b : Byte) (c : Bool) : (s.setResult x b c).mem = s.mem := rfl
@[simp] theorem State.setResult_i (s : State) (x : Nibble) (b : Byte) (c : Bool) : (s.setResult x b c).i = s.i := rfl
@[simp] theorem State.setResult_pc (s : State) (x : Nibble) (b : Byte) (c : Bool) : (s.setResult x b c).pc = s.pc := rfl
@[simp] theorem State.setResult_stack (s : State) (x : Nibble) (b : Byte) (c : Bool) : (s.setResult x b c).stack = s.stack := rfl
@[simp] theorem State.setResult_sp (s : State) (x : Nibble) (b : Byte) (c : Bool) : (s.setResult x b c).sp = s.sp := rfl
@[simp] theorem State.setResult_dt (s : State) (x : Nibble) (b : Byte) (c : Bool) : (s.setResult x b c).dt = s.dt := rfl
@[simp] theorem State.setResult_st (s : State) (x : Nibble) (b : Byte) (c : Bool) : (s.setResult x b c).st = s.st := rfl
@[simp] theorem State.setResult_fb (s : State) (x : Nibble) (b : Byte) (c : Bool) : (s.setResult x b c).fb = s.fb := rfl
@[simp] theorem State.setResult_redraw (s : State) (x : Nibble) (b : Byte) (c : Bool) : (s.setResult x b c).redraw = s.redraw := rfl
@[simp] theorem State.setResult_keys (s : State) (x : Nibble) (b : Byte) (c : Bool) : (s.setResult x b c).keys = s.keys := rfl
@[simp] theorem State.setResult_wait (s : State) (x : Nibble) (b : Byte) (c : Bool) : (s.setResult x b c).wait = s.wait := rfl
@[simp] theorem State.setResult_fault (s : State) (x : Nibble) (b : Byte) (c : Bool) : (s.setResult x b c).fault = s.fault := rfl
@[simp] theorem State.setResult_unknownSeen (s : State) (x : Nibble) (b : Byte) (c : Bool) : (s.setResult x b c).unknownSeen = s.unknownSeen := rfl
@[simp] theorem State.setResult_draws (s : State) (x : Nibble) (b : Byte) (c : Bool) : (s.setResult x b c).draws = s.draws := rfl

/-! ### State.reportUnknown -/

@[simp] theorem State.reportUnknown_mem (s : State) : (s.reportUnknown).mem = s.mem := rfl
@[simp] theorem State.reportUnknown_v (s : State) : (s.reportUnknown).v = s.v := rfl
@[simp] theorem State.reportUnknown_i (s : State) : (s.reportUnknown).i = s.i := rfl
@[simp] theorem State.reportUnknown_pc (s : State) : (s.reportUnknown).pc = s.pc + 2 := rfl
@[simp] theorem State.reportUnknown_stack (s : State) : (s.reportUnknown).stack = s.stack := rfl
@[simp] theorem State.reportUnknown_sp (s : State) : (s.reportUnknown).sp = s.sp := rfl
@[simp] theorem State.reportUnknown_dt (s : State) : (s.reportUnknown).dt = s.dt := rfl
@[simp] theorem State.reportUnknown_st (s : State) : (s.reportUnknown).st = s.st := rfl
@[simp] theorem State.reportUnknown_fb (s : State) : (s.reportUnknown).fb = s.fb := rfl
@[simp] theorem State.reportUnknown_redraw (s : State) : (s.reportUnknown).redraw = s.redraw := rfl
@[simp] theorem State.reportUnknown_keys (s : State) : (s.reportUnknown).keys = s.keys := rfl
@[simp] theorem State.reportUnknown_wait (s : State) : (s.reportUnknown).wait = s.wait := rfl
@[simp] theorem State.reportUnknown_fault (s : State) : (s.reportUnknown).fault = s.fault := rfl
@[simp] theorem State.reportUnknown_unknownSeen (s : State) : (s.reportUnknown).unknownSeen = true := rfl
@[simp] theorem State.reportUnknown_draws (s : State) : (s.reportUnknown).draws = s.draws := rfl
@[simp] theorem State.reportUnknown_reg (s : State) (q : Nibble) : (s.reportUnknown).reg q = s.reg q := rfl

/-! ### State.completeWait -/

@[simp] theorem State.completeWait_mem (s : State) (x k : Nibble) : (s.completeWait x k).mem = s.mem := rfl
@[simp] theorem State.completeWait_v (s : State) (x k : Nibble) : (s.completeWait x k).v = s.v.set x.toNat (k.setWidth 8) x.isLt := rfl
@[simp] theorem State.completeWait_i (s : State) (x k : Nibble) : (s.completeWait x k).i = s.i := rfl
@[simp] theorem State.completeWait_pc (s : State) (x k : Nibble) : (s.completeWait x k).pc = s.pc + 2 := rfl
@[simp] theorem State.completeWait_stack (s : State) (x k : Nibble) : (s.completeWait x k).stack = s.stack := rfl
@[simp] theorem State.completeWait_sp (s : State) (x k : Nibble) : (s.completeWait x k).sp = s.sp := rfl
@[simp] theorem State.completeWait_dt (s : State) (x k : Nibble) : (s.completeWait x k).dt = s.dt := rfl
@[simp] theorem State.completeWait_st (s : State) (x k : Nibble) : (s.completeWait x k).st = s.st := rfl
@[simp] theorem State.completeWait_fb (s : State) (x k : Nibble) : (s.completeWait x k).fb = s.fb := rfl
@[simp] theorem State.completeWait_redraw (s : State) (x k : Nibble) : (s.completeWait x k).redraw = s.redraw := rfl
@[simp] theorem State.completeWait_keys (s : State) (x k : Nibble) : (s.completeWait x k).keys = s.keys := rfl
@[simp] theorem State.completeWait_wait (s : State) (x k : Nibble) : (s.completeWait x k).wait = .running := rfl
@[simp] theorem State.completeWait_fault (s : State) (x k : Nibble) : (s.completeWait x k).fault = s.fault := rfl
@[simp] theorem State.completeWait_unknownSeen (s : State) (x k : Nibble) : (s.completeWait x k).unknownSeen = s.unknownSeen := rfl
@[simp] theorem State.completeWait_draws (s : State) (x k : Nibble) : (s.completeWait x k).draws = s.draws := rfl

/-! ### State.initialise -/

@[simp] theorem State.initialise_mem (s : State) : s.initialise.mem = State.reset.mem := rfl
@[simp] theorem State.initialise_v (s : State) : s.initialise.v = State.reset.v := rfl
@[simp] theorem State.initialise_i (s : State) : s.initialise.i = State.reset.i := rfl
@[simp] theorem State.initialise_pc (s : State) : s.initialise.pc = State.reset.pc := rfl
@[simp] theorem State.initialise_stack (s : State) : s.initialise.stack = State.reset.stack := rfl
@[simp] theorem State.initialise_sp (s : State) : s.initialise.sp = State.reset.sp := rfl
@[simp] theorem State.initialise_dt (s : State) : s.initialise.dt = State.reset.dt := rfl
@[simp] theorem State.initialise_st (s : State) : s.initialise.st = State.reset.st := rfl
@[simp] theorem State.initialise_fb (s : State) : s.initialise.fb = State.reset.fb := rfl
@[simp] theorem State.initialise_redraw (s : State) : s.initialise.redraw = State.reset.redraw := rfl
@[simp] theorem State.initialise_keys (s : State) : s.initialise.keys = s.keys := rfl
@[simp] theorem State.initialise_wait (s : State) : s.initialise.wait = State.reset.wait := rfl
@[simp] theorem State.initialise_fault (s : State) : s.initialise.fault = State.reset.fault := rfl
@[simp] theorem State.initialise_unknownSeen (s : State) : s.initialise.unknownSeen = State.reset.unknownSeen := rfl
@[simp] theorem State.initialise_draws (s : State) : s.initialise.draws = s.draws := rfl

/-! ### Registers -/

theorem State.reg_eq (s : State) (r : Nibble) : s.reg r = s.v[r.toNat]'(r.isLt) := rfl

@[simp] theorem State.reg_setReg_same (s : State) (r : Nibble) (b : Byte) : (s.setReg r b).reg r = b := by
  simp [State.reg_eq]

theorem State.reg_setReg (s : State) (r q : Nibble) (b : Byte) :
    (s.setReg r b).reg q = if q = r then b else s.reg q := by
  by_cases h : q = r
  · simp [h]
  · have : r.toNat ≠ q.toNat := fun e => h (BitVec.eq_of_toNat_eq e.symm)
    simp [State.reg_eq, h, Vector.getElem_set_ne, this]

theorem State.reg_setReg_ne (s : State) (r q : Nibble) (b : Byte) (h : q ≠ r) : (s.setReg r b).reg q = s.reg q := by
  simp [State.reg_setReg, h]

theorem State.reg_setFlag (s : State) (c : Bool) (q : Nibble) :
    (s.setFlag c).reg q = if q = flagReg then flagByte c else s.reg q := State.reg_setReg s flagReg q (flagByte c)

theorem State.reg_setResult (s : State) (x q : Nibble) (b : Byte) (c : Bool) :
    (s.setResult x b c).reg q = if q = flagReg then flagByte c else if q = x then b else s.reg q := by
  simp [State.setResult, State.reg_setFlag, State.reg_setReg]

theorem State.reg_completeWait (s : State) (x k q : Nibble) :
    (s.completeWait x k).reg q = if q = x then k.setWidth 8 else s.reg q := State.reg_setReg s x q _

@[simp] theorem State.reg_reset (q : Nibble) : State.reset.reg q = 0 := by
  simp [State.reg_eq, State.reset]

/-- Two register files that read the same are the same. -/
theorem v_eq_of_reg_eq {s t : State} (h : ∀ r, s.reg r = t.reg r) : s.v = t.v := by
  apply Vector.ext
  intro j hj
  have := h (BitVec.ofNat 4 j)
  have e : j % 16 = j := Nat.mod_eq_of_lt hj
  simpa [State.reg_eq, e] using this

/-! ### Loading several registers -/

@[simp] theorem State.setRegsFrom_mem (s : State) (r : Nat) (bs : List Byte) :
    (s.setRegsFrom r bs).mem = s.mem := by
  induction bs generalizing s r with
  | nil => rfl
  | cons b bs ih => simp [State.setRegsFrom, ih]

@[simp] theorem State.setRegsFrom_i (s : State) (r : Nat) (bs : List Byte) :
    (s.setRegsFrom r bs).i = s.i := by
  induction bs generalizing s r with
  | nil => rfl
  | cons b bs ih => simp [State.setRegsFrom, ih]

@[simp] theorem State.setRegsFrom_pc (s : State) (r : Nat) (bs : List Byte) :
    (s.setRegsFrom r bs).pc = s.pc := by
  induction bs generalizing s r with
  | nil => rfl
  | cons b bs ih => simp [State.setRegsFrom, ih]

@[simp] theorem State.setRegsFrom_stack (s : State) (r : Nat) (bs : List Byte) :
    (s.setRegsFrom r bs).stack = s.stack := by
  induction bs generalizing s r with
  | nil => rfl
  | cons b bs ih => simp [State.setRegsFrom, ih]

@[simp] theorem State.setRegsFrom_sp (s : State) (r : Nat) (bs : List Byte) :
    (s.setRegsFrom r bs).sp = s.sp := by
  induction bs generalizing s r with
  | nil => rfl
  | cons b bs ih => simp [State.setRegsFrom, ih]

@[simp] theorem State.setRegsFrom_dt (s : State) (r : Nat) (bs : List Byte) :
    (s.setRegsFrom r bs).dt = s.dt := by
  induction bs generalizing s r with
  | nil => rfl
  | cons b bs ih => simp [State.setRegsFrom, ih]

@[simp] theorem State.setRegsFrom_st (s : State) (r : Nat) (bs : List Byte) :
    (s.setRegsFrom r bs).st = s.st := by
  induction bs generalizing s r with
  | nil => rfl
  | cons b bs ih => simp [State.setRegsFrom, ih]

@[simp] theorem State.setRegsFrom_fb (s : State) (r : Nat) (bs : List Byte) :
    (s.setRegsFrom r bs).fb = s.fb := by
  induction bs generalizing s r with
  | nil => rfl
  | cons b bs ih => simp [State.setRegsFrom, ih]

@[simp] theorem State.setRegsFrom_redraw (s : State) (r : Nat) (bs : List Byte) :
    (s.setRegsFrom r bs).redraw = s.redraw := by
  induction bs generalizing s r with
  | nil => rfl
  | cons b bs ih => simp [State.setRegsFrom, ih]

@[simp] theorem State.setRegsFrom_keys (s : State) (r : Nat) (bs : List Byte) :
    (s.setRegsFrom r bs).keys = s.keys := by
  induction bs generalizing s r with
  | nil => rfl
  | cons b bs ih => simp [State.setRegsFrom, ih]

@[simp] theorem State.setRegsFrom_wait (s : State) (r : Nat) (bs : List Byte) :
    (s.setRegsFrom r bs).wait = s.wait := by
  induction bs generalizing s r with
  | nil => rfl
  | cons b bs ih => simp [State.setRegsFrom, ih]

@[simp] theorem State.setRegsFrom_fault (s : State) (r : Nat) (bs : List Byte) :
    (s.setRegsFrom r bs).fault = s.fault := by
  induction bs generalizing s r with
  | nil => rfl
  | cons b bs ih => simp [State.setRegsFrom, ih]

@[simp] theorem State.setRegsFrom_unknownSeen (s : State) (r : Nat) (bs : List Byte) :
    (s.setRegsFrom r bs).unknownSeen = s.unknownSeen := by
  induction bs generalizing s r with
  | nil => rfl
  | cons b bs ih => simp [State.setRegsFrom, ih]

@[simp] theorem State.setRegsFrom_draws (s : State) (r : Nat) (bs : List Byte) :
    (s.setRegsFrom r bs).draws = s.draws := by
  induction bs generalizing s r with
  | nil => rfl
  | cons b bs ih => simp [State.setRegsFrom, ih]

end Sys2Proof.Machine
end

