-- ==== Sys2Proof/Laws/Memory.lean ====
section
/-! SUPPORT. What the memory operations do: reads after writes in every memory, canonical or not, and that every
operation keeps the canonical form. -/

namespace Sys2Proof.Machine

@[simp] theorem Memory.readByte_nil (a : Nat) : Memory.readByte [] a = unlistedByte a := rfl

theorem Memory.readByte_cons (k : Nat) (b : Byte) (m : Memory) (a : Nat) :
    Memory.readByte ((k, b) :: m) a = if k = a then b else m.readByte a := rfl

/-- An address that no entry lists reads as unlisted. -/
theorem Memory.readByte_unlisted (m : Memory) (a : Nat) (h : ∀ c ∈ m, c.1 ≠ a) : m.readByte a = unlistedByte a := by
  induction m with
  | nil => rfl
  | cons c m ih =>
    obtain ⟨k, b⟩ := c
    have hk : k ≠ a := h (k, b) (by simp)
    simp only [Memory.readByte_cons, if_neg hk]
    exact ih fun d hd => h d (by simp [hd])

theorem Memory.mem_erase {m : Memory} {a : Nat} {c : Host.Cell} : c ∈ m.erase a ↔ c ∈ m ∧ c.1 ≠ a := by
  simp [Memory.erase, List.mem_filter]

theorem Memory.readByte_erase (m : Memory) (a c : Nat) :
    (m.erase a).readByte c = if c = a then unlistedByte a else m.readByte c := by
  by_cases hc : c = a
  · subst hc
    simp only [if_true]
    exact Memory.readByte_unlisted _ _ fun d hd => (Memory.mem_erase.mp hd).2
  · simp only [if_neg hc]
    induction m with
    | nil => rfl
    | cons d m ih =>
      obtain ⟨k, b⟩ := d
      by_cases hk : k = a
      · have : k ≠ c := fun e => hc (e ▸ hk)
        simpa [Memory.erase, hk, Memory.readByte_cons, Ne.symm hc] using ih
      · have e : Memory.erase ((k, b) :: m) a = (k, b) :: Memory.erase m a := by simp [Memory.erase, hk]
        rw [e, Memory.readByte_cons, Memory.readByte_cons, ih]

theorem Memory.readByte_insert (m : Memory) (a c : Nat) (b : Byte) (h : ∀ d ∈ m, d.1 ≠ a) :
    (m.insert a b).readByte c = if c = a then b else m.readByte c := by
  induction m with
  | nil => simp [Memory.insert, Memory.readByte_cons, eq_comm]
  | cons d m ih =>
    obtain ⟨k, e⟩ := d
    have hk : k ≠ a := h (k, e) (by simp)
    have ih := ih fun d hd => h d (by simp [hd])
    unfold Memory.insert
    split
    · simp [Memory.readByte_cons, eq_comm]
    · simp only [Memory.readByte_cons, ih]
      by_cases hc : c = a
      · subst hc; simp [hk]
      · simp [hc]

/-- A read after a write: the byte written at its address, and every other byte as before. -/
theorem Memory.readByte_writeByte (m : Memory) (a c : Nat) (b : Byte) :
    (m.writeByte a b).readByte c = if c = a then b else m.readByte c := by
  unfold Memory.writeByte
  split
  · next h => rw [Memory.readByte_erase]; by_cases hc : c = a <;> simp [hc, h]
  · rw [Memory.readByte_insert _ _ _ _ fun d hd => (Memory.mem_erase.mp hd).2, Memory.readByte_erase]
    by_cases hc : c = a <;> simp [hc]

/-- A read outside the bytes written reads as before. -/
theorem Memory.readByte_writeBytes_outside (bs : List Byte) (m : Memory) (a c : Nat) (h : c < a ∨ a + bs.length ≤ c) :
    (m.writeBytes a bs).readByte c = m.readByte c := by
  induction bs generalizing m a with
  | nil => rfl
  | cons b bs ih =>
    simp only [List.length_cons] at h
    have hc : c ≠ a := by omega
    rw [Memory.writeBytes, ih _ _ (by omega), Memory.readByte_writeByte, if_neg hc]

/-- A read inside the bytes written gives the byte written there. -/
theorem Memory.readByte_writeBytes_inside (bs : List Byte) (m : Memory) (a j : Nat) (h : j < bs.length) :
    (m.writeBytes a bs).readByte (a + j) = bs[j] := by
  induction bs generalizing m a j with
  | nil => simp at h
  | cons b bs ih =>
    rw [Memory.writeBytes]
    cases j with
    | zero =>
      rw [Memory.readByte_writeBytes_outside _ _ _ _ (by omega), Memory.readByte_writeByte]
      simp
    | succ j =>
      have := ih (m.writeByte a b) (a + 1) j (by simpa using h)
      simpa [Nat.add_assoc, Nat.add_comm 1 j] using this

@[simp] theorem Memory.length_readBytes (m : Memory) (a n : Nat) : (m.readBytes a n).length = n := by
  induction n generalizing a with
  | zero => rfl
  | succ n ih => simp [Memory.readBytes, ih]

@[simp] theorem Memory.getElem_readBytes (m : Memory) (a n j : Nat) (h : j < (m.readBytes a n).length) :
    (m.readBytes a n)[j] = m.readByte (a + j) := by
  induction n generalizing a j with
  | zero => simp at h
  | succ n ih =>
    cases j with
    | zero => rfl
    | succ j =>
      have := ih (a + 1) j (by simpa using h)
      simpa [Memory.readBytes, Nat.add_assoc, Nat.add_comm 1 j] using this

/-- Two memories that read the same give the same bytes. -/
theorem Memory.readBytes_congr {m m' : Memory} (h : ∀ a, m.readByte a = m'.readByte a) (a n : Nat) :
    m.readBytes a n = m'.readBytes a n := by
  induction n generalizing a with
  | zero => rfl
  | succ n ih => simp [Memory.readBytes, h, ih]

/-! ### The canonical form -/

theorem Memory.wf_nil : Memory.wf [] := by simp [Memory.wf]

theorem Memory.wf_erase {m : Memory} (h : m.wf) (a : Nat) : (m.erase a).wf :=
  ⟨h.1.filter _, fun c hc => h.2 c (Memory.mem_erase.mp hc).1⟩

theorem Memory.mem_insert {m : Memory} {a : Nat} {b : Byte} {c : Host.Cell} :
    c ∈ m.insert a b ↔ c = (a, b) ∨ c ∈ m := by
  induction m with
  | nil => simp [Memory.insert]
  | cons d m ih =>
    obtain ⟨k, e⟩ := d
    unfold Memory.insert
    split
    · simp
    · simp [ih]; tauto

theorem Memory.wf_insert {m : Memory} (h : m.wf) (a : Nat) (b : Byte) (ha : a < Config.memSize)
    (hb : b ≠ unlistedByte a) (hm : ∀ c ∈ m, c.1 ≠ a) : (m.insert a b).wf := by
  refine ⟨?_, fun c hc => ?_⟩
  · have hs := h.1
    clear h
    induction m with
    | nil => simp [Memory.insert]
    | cons d m ih =>
      obtain ⟨k, e⟩ := d
      have hk : k ≠ a := hm (k, e) (by simp)
      obtain ⟨h1, h2⟩ := List.pairwise_cons.mp hs
      unfold Memory.insert
      split
      · next hlt =>
        refine List.pairwise_cons.mpr ⟨fun c hc => ?_, hs⟩
        rcases List.mem_cons.mp hc with rfl | hc
        · exact hlt
        · exact Nat.lt_trans hlt (h1 c hc)
      · next hge =>
        refine List.pairwise_cons.mpr ⟨fun c hc => ?_, ih (fun c hc => hm c (by simp [hc])) h2⟩
        rcases Memory.mem_insert.mp hc with rfl | hc
        · show k < a; omega
        · exact h1 c hc
  · rcases Memory.mem_insert.mp hc with rfl | hc
    · exact ⟨ha, hb⟩
    · exact h.2 c hc

theorem Memory.wf_writeByte {m : Memory} (h : m.wf) (a : Nat) (b : Byte) (ha : a < Config.memSize) :
    (m.writeByte a b).wf := by
  unfold Memory.writeByte
  split
  · exact Memory.wf_erase h a
  · next hb => exact Memory.wf_insert (Memory.wf_erase h a) a b ha hb fun c hc => (Memory.mem_erase.mp hc).2

theorem Memory.wf_writeBytes {m : Memory} (h : m.wf) (a : Nat) (bs : List Byte)
    (ha : bs = [] ∨ a + bs.length ≤ Config.memSize) : (m.writeBytes a bs).wf := by
  induction bs generalizing m a with
  | nil => exact h
  | cons b bs ih =>
    have ha : a + (bs.length + 1) ≤ Config.memSize := by simpa using ha
    exact ih (Memory.wf_writeByte h a b (by omega)) (a + 1) (Or.inr (by omega))

theorem reset_memory_wf : State.reset.mem.wf := Memory.wf_nil

/-- A store inside memory keeps the canonical form. -/
theorem State.store_wf {s : State} (h : s.mem.wf) (a : Nat) (bs : List Byte) (ha : inMemory a bs.length = true) :
    (s.store a bs).mem.wf := by
  refine Memory.wf_writeBytes h a bs ?_
  simp only [inMemory, Bool.or_eq_true, beq_iff_eq, decide_eq_true_eq] at ha
  rcases ha with h0 | h0
  · exact Or.inl (List.length_eq_zero_iff.mp h0)
  · exact Or.inr h0

end Sys2Proof.Machine
end

