-- ==== Sys2Proof/Laws/Ops.lean ====
section
/-! SUPPORT. For each shared operation, once, everything it can do. -/

namespace Sys2Proof.Machine

/-! ### The range check and the access it guards -/

theorem inMemory_iff (a n : Nat) : inMemory a n = true ↔ n = 0 ∨ a + n ≤ 4096 := by
  simp [inMemory, Config.memSize]

theorem State.ifInMemory_of_inside {s t : State} {a n : Nat} (h : n = 0 ∨ a + n ≤ 4096) : s.ifInMemory a n t = t := by
  simp [State.ifInMemory, (inMemory_iff a n).mpr h]

theorem State.ifInMemory_of_outside {s t : State} {a n : Nat} (h : ¬(n = 0 ∨ a + n ≤ 4096)) :
    s.ifInMemory a n t = s.raise .memoryFault := by
  have : inMemory a n = false := by
    rw [Bool.eq_false_iff]; exact fun e => h ((inMemory_iff a n).mp e)
  simp [State.ifInMemory, this]

/-- A guarded access has its effect, inside memory, or takes `MemoryFault` and does nothing else. -/
theorem State.ifInMemory_cases (s t : State) (a n : Nat) :
    ((n = 0 ∨ a + n ≤ 4096) ∧ s.ifInMemory a n t = t) ∨
    (¬(n = 0 ∨ a + n ≤ 4096) ∧ s.ifInMemory a n t = s.raise .memoryFault) := by
  by_cases h : n = 0 ∨ a + n ≤ 4096
  · exact Or.inl ⟨h, State.ifInMemory_of_inside h⟩
  · exact Or.inr ⟨h, State.ifInMemory_of_outside h⟩

/-! ### The stack -/

theorem State.push?_none_iff (s : State) : s.push? = none ↔ s.sp.val = 16 := by
  unfold State.push?
  have := s.sp.isLt
  split
  · next h => simp; omega
  · next h => simp; omega

/-- A push saves the pc at the depth and adds one to the depth. -/
theorem State.push?_eq_some {s t : State} (h : s.push? = some t) :
    ∃ hlt : s.sp.val < 16,
      t = { s with stack := s.stack.set s.sp.val s.pc hlt, sp := ⟨s.sp.val + 1, Nat.succ_lt_succ hlt⟩ } := by
  unfold State.push? at h
  split at h
  · next hlt => exact ⟨hlt, by simpa using h.symm⟩
  · simp at h

theorem State.push?_of_lt {s : State} (h : s.sp.val < 16) :
    s.push? =
      some { s with stack := s.stack.set s.sp.val s.pc h, sp := ⟨s.sp.val + 1, Nat.succ_lt_succ h⟩ } := by
  simp [State.push?, h]

theorem State.pop?_none_iff (s : State) : s.pop? = none ↔ s.sp.val = 0 := by
  unfold State.pop?
  split <;> simp_all

/-- A pop gives the newest saved value and takes one from the depth; the entries stay. -/
theorem State.pop?_eq_some {s : State} {w : Word} {t : State} (h : s.pop? = some (w, t)) :
    0 < s.sp.val ∧ ∃ hlt : s.sp.val - 1 < 16,
      w = s.stack[s.sp.val - 1] ∧ t = { s with sp := ⟨s.sp.val - 1, by omega⟩ } := by
  unfold State.pop? at h
  have hsp := s.sp.isLt
  split at h
  · simp at h
  · next hne =>
    simp only [Option.some.injEq, Prod.mk.injEq] at h
    exact ⟨by omega, by omega, h.1.symm, h.2.symm⟩

theorem State.pop?_of_pos {s : State} (h : 0 < s.sp.val) :
    ∃ hlt : s.sp.val - 1 < 16,
      s.pop? = some (s.stack[s.sp.val - 1], { s with sp := ⟨s.sp.val - 1, by omega⟩ }) := by
  have hsp := s.sp.isLt
  refine ⟨by omega, ?_⟩
  simp [State.pop?, Nat.pos_iff_ne_zero.mp h]

/-! ### Fetch, phase and step -/

theorem State.fetch16?_of_le {s : State} (h : s.pc.toNat ≤ 0xFFE) :
    s.fetch16? = some (joinBytes (s.mem.readByte s.pc.toNat) (s.mem.readByte (s.pc.toNat + 1))) := by
  have : inMemory s.pc.toNat 2 = true := (inMemory_iff _ _).mpr (Or.inr (by omega))
  simp [State.fetch16?, this]

theorem State.fetch16?_none_iff (s : State) : s.fetch16? = none ↔ 0xFFE < s.pc.toNat := by
  unfold State.fetch16?
  split
  · next h => have := (inMemory_iff _ _).mp h; simp; omega
  · next h =>
    simp only [true_iff]
    by_contra hle
    exact h ((inMemory_iff _ _).mpr (Or.inr (by omega)))

theorem phase_of_fault {s : State} (h : s.fault ≠ none) : phase s = .idle := by
  obtain ⟨k, hk⟩ := Option.ne_none_iff_exists'.mp h
  simp [phase, hk]

theorem phase_of_awaiting {s : State} {x : Nibble} (h : s.wait = .awaitingKey x) : phase s = .idle := by
  cases hf : s.fault <;> simp [phase, hf, h]

theorem phase_of_latched {s : State} {x k : Nibble} (hf : s.fault = none) (h : s.wait = .keyLatched x k) :
    phase s = .complete x k := by simp [phase, hf, h]

theorem phase_of_running {s : State} (hf : s.fault = none) (h : s.wait = .running) : phase s = fetchPhase s := by
  simp [phase, hf, h]

theorem phase_run_of_fetch {s : State} {w : Word} {i : Instr} (hf : s.fault = none) (hw : s.wait = .running)
    (hfetch : s.fetch16? = some w) (hd : decode w = some i) : phase s = .run i := by
  simp [phase_of_running hf hw, fetchPhase, hfetch, hd]

/-- What the phase of a state says of it: the cases of R80, each with its conditions. -/
theorem phase_cases (s : State) :
    (phase s = .idle ∧ (s.fault ≠ none ∨ ∃ x, s.wait = .awaitingKey x)) ∨
    (∃ x k, phase s = .complete x k ∧ s.fault = none ∧ s.wait = .keyLatched x k) ∨
    (phase s = .fetchFault ∧ s.fault = none ∧ s.wait = .running ∧ 0xFFE < s.pc.toNat) ∨
    (∃ w, phase s = .unknown w ∧ s.fault = none ∧ s.wait = .running ∧ s.fetch16? = some w ∧ decode w = none) ∨
    (∃ w i, phase s = .run i ∧ s.fault = none ∧ s.wait = .running ∧ s.fetch16? = some w ∧ decode w = some i) := by
  cases hf : s.fault with
  | some k => exact Or.inl ⟨phase_of_fault (by simp [hf]), Or.inl (by simp)⟩
  | none =>
    cases hw : s.wait with
    | awaitingKey x => exact Or.inl ⟨phase_of_awaiting hw, Or.inr ⟨x, rfl⟩⟩
    | keyLatched x k => exact Or.inr (Or.inl ⟨x, k, phase_of_latched hf hw, rfl, rfl⟩)
    | running =>
      rw [phase_of_running hf hw, fetchPhase]
      cases hfe : s.fetch16? with
      | none => exact Or.inr (Or.inr (Or.inl ⟨rfl, rfl, rfl, (State.fetch16?_none_iff s).mp hfe⟩))
      | some w =>
        cases hd : decode w with
        | none => exact Or.inr (Or.inr (Or.inr (Or.inl ⟨w, by simp [hd]⟩)))
        | some i => exact Or.inr (Or.inr (Or.inr (Or.inr ⟨w, i, by simp [hd]⟩)))

/-- Everything a step can do, with its conditions. -/
theorem step_cases (s : State) :
    (step s = .next s ∧ phase s = .idle ∧ (s.fault ≠ none ∨ ∃ x, s.wait = .awaitingKey x)) ∨
    (∃ x k, step s = .next (s.completeWait x k) ∧ phase s = .complete x k ∧ s.fault = none ∧
      s.wait = .keyLatched x k) ∨
    (step s = .next (s.raise .memoryFault) ∧ phase s = .fetchFault ∧ s.fault = none ∧ s.wait = .running ∧
      0xFFE < s.pc.toNat) ∨
    (∃ w, step s = .next s.reportUnknown ∧ phase s = .unknown w ∧ s.fault = none ∧ s.wait = .running ∧
      s.pc.toNat ≤ 0xFFE ∧ s.fetch16? = some w ∧ decode w = none) ∨
    (∃ w i, step s = exec i s ∧ phase s = .run i ∧ s.fault = none ∧ s.wait = .running ∧ s.pc.toNat ≤ 0xFFE ∧
      s.fetch16? = some w ∧ decode w = some i) := by
  have fetched : ∀ {w}, s.fetch16? = some w → s.pc.toNat ≤ 0xFFE := fun {w} hw => by
    by_contra hgt
    have := (State.fetch16?_none_iff s).mpr (by omega)
    simp [this] at hw
  rcases phase_cases s with ⟨hp, h⟩ | ⟨x, k, hp, h⟩ | ⟨hp, h⟩ | ⟨w, hp, hf, hw, hfe, hd⟩ | ⟨w, i, hp, hf, hw, hfe, hd⟩
  · exact Or.inl ⟨by simp [step, hp], hp, h⟩
  · exact Or.inr (Or.inl ⟨x, k, by simp [step, hp], hp, h⟩)
  · exact Or.inr (Or.inr (Or.inl ⟨by simp [step, hp], hp, h⟩))
  · exact Or.inr (Or.inr (Or.inr (Or.inl ⟨w, by simp [step, hp], hp, hf, hw, fetched hfe, hfe, hd⟩)))
  · exact Or.inr (Or.inr (Or.inr (Or.inr ⟨w, i, by simp [step, hp], hp, hf, hw, fetched hfe, hfe, hd⟩)))

/-! ### Block transfers -/

@[simp] theorem State.length_regsFrom (s : State) (r n : Nat) : (s.regsFrom r n).length = n := by
  induction n generalizing r with
  | zero => rfl
  | succ n ih => simp [State.regsFrom, ih]

@[simp] theorem State.getElem_regsFrom (s : State) (r n j : Nat) (h : j < (s.regsFrom r n).length) :
    (s.regsFrom r n)[j] = s.reg (BitVec.ofNat 4 (r + j)) := by
  induction n generalizing r j with
  | zero => simp at h
  | succ n ih =>
    cases j with
    | zero => rfl
    | succ j =>
      have := ih (r + 1) j (by simpa using h)
      simpa [State.regsFrom, Nat.add_assoc, Nat.add_comm 1 j] using this

/-- Loading bytes from register `r` up: the registers of that range get them, the others keep theirs. -/
theorem State.reg_setRegsFrom (s : State) (r : Nat) (bs : List Byte) (hr : r + bs.length ≤ 16) (q : Nibble) :
    (s.setRegsFrom r bs).reg q =
      if h : r ≤ q.toNat ∧ q.toNat < r + bs.length then bs[q.toNat - r]'(by omega) else s.reg q := by
  induction bs generalizing s r with
  | nil => simp [State.setRegsFrom]
  | cons b bs ih =>
    simp only [List.length_cons] at hr
    rw [State.setRegsFrom, ih _ _ (by omega)]
    have hb : (BitVec.ofNat 4 r).toNat = r := by
      simp; omega
    by_cases hq : q.toNat = r
    · have : q = BitVec.ofNat 4 r := BitVec.eq_of_toNat_eq (by rw [hb, hq])
      subst this
      simp [hb]
    · have hne : q ≠ BitVec.ofNat 4 r := fun e => hq (by rw [e, hb])
      rw [State.reg_setReg_ne _ _ _ _ hne]
      by_cases h1 : r + 1 ≤ q.toNat ∧ q.toNat < r + 1 + bs.length
      · have h2 : r ≤ q.toNat ∧ q.toNat < r + (bs.length + 1) := by omega
        rw [dif_pos h1, dif_pos (by simpa using h2)]
        have : q.toNat - r = (q.toNat - (r + 1)) + 1 := by omega
        simp [this]
      · have h2 : ¬(r ≤ q.toNat ∧ q.toNat < r + (bs.length + 1)) := by omega
        rw [dif_neg h1, dif_neg (by simpa using h2)]

end Sys2Proof.Machine
end

