-- ==== Sys2Proof/Laws/Graphics.lean ====
section
/-! SUPPORT. The screen: reads of a cell after a flip, extensionality, what a sequence of flips does, and which cells a
sprite reaches. -/

namespace Sys2Proof.Machine

theorem Screen.cell_eq (fb : Screen) {j : Nat} (h : j < 2048) :
    fb.cell j = (fb[j / 64]'(Nat.div_lt_of_lt_mul h))[j % 64]'(Nat.mod_lt j (by decide)) := by
  simp [Screen.cell, h]

theorem Screen.cell_outside (fb : Screen) {j : Nat} (h : ¬ j < 2048) : fb.cell j = false := by
  simp [Screen.cell, h]

@[simp] theorem Screen.cell_blank (j : Nat) : Screen.blank.cell j = false := by
  by_cases h : j < 2048 <;> simp [Screen.cell, Screen.blank]

theorem reset_fb : State.reset.fb = Screen.blank := rfl

/-- A cell after a flip: the flipped one is inverted, the others stay. -/
theorem Screen.cell_flip (fb : Screen) (j k : Nat) :
    (fb.flip j).cell k = if k = j ∧ j < 2048 then !fb.cell j else fb.cell k := by
  by_cases hj : j < 2048
  · by_cases hk : k < 2048
    · rw [Screen.cell_eq _ hk, Screen.flip, dif_pos hj]
      by_cases hrow : j / 64 = k / 64
      · by_cases hcol : j % 64 = k % 64
        · have : k = j := by omega
          subst this
          simp [hj]
        · have hne : k ≠ j := fun e => hcol (by rw [e])
          simp [hne, hrow, hcol, Screen.cell_eq _ hk]
      · have hne : k ≠ j := fun e => hrow (by rw [e])
        simp [hne, hrow, Screen.cell_eq _ hk]
    · have hne : ¬(k = j ∧ j < 2048) := by omega
      rw [if_neg hne, Screen.cell_outside _ hk, Screen.cell_outside _ hk]
  · simp [Screen.flip, hj]

/-- Two screens whose cells read the same are the same. -/
theorem Screen.ext_cell {fb fb' : Screen} (h : ∀ j, j < 2048 → fb.cell j = fb'.cell j) : fb = fb' := by
  apply Vector.ext
  intro r hr
  apply Vector.ext
  intro c hc
  have hj : r * 64 + c < 2048 := by omega
  have := h (r * 64 + c) hj
  rw [Screen.cell_eq _ hj, Screen.cell_eq _ hj] at this
  have e1 : (r * 64 + c) / 64 = r := by omega
  have e2 : (r * 64 + c) % 64 = c := by omega
  simpa only [e1, e2] using this

/-- Flips of distinct cells: each listed cell is inverted once, the others stay. -/
theorem Screen.cell_foldl_flip (cells : List Nat) (hn : cells.Nodup) (hb : ∀ j ∈ cells, j < 2048)
    (acc : Screen × Bool) (k : Nat) :
    (cells.foldl (fun acc j => (acc.1.flip j, acc.2 || acc.1.cell j)) acc).1.cell k =
      (acc.1.cell k ^^ decide (k ∈ cells)) := by
  induction cells generalizing acc with
  | nil => simp
  | cons j cells ih =>
    obtain ⟨hj, hn⟩ := List.nodup_cons.mp hn
    rw [List.foldl_cons, ih hn (fun i hi => hb i (by simp [hi])), Screen.cell_flip]
    have hj2 : j < 2048 := hb j (by simp)
    by_cases hk : k = j
    · subst hk; simp [hj, hj2]
    · simp [hk]

theorem Screen.collision_foldl_flip (cells : List Nat) (hn : cells.Nodup) (acc : Screen × Bool) :
    (cells.foldl (fun acc j => (acc.1.flip j, acc.2 || acc.1.cell j)) acc).2 =
      (acc.2 || cells.any fun j => acc.1.cell j) := by
  induction cells generalizing acc with
  | nil => simp
  | cons j cells ih =>
    obtain ⟨hj, hn⟩ := List.nodup_cons.mp hn
    rw [List.foldl_cons, ih hn]
    have : (cells.any fun i => (acc.1.flip j).cell i) = cells.any fun i => acc.1.cell i := by
      rw [Bool.eq_iff_iff, List.any_eq_true, List.any_eq_true]
      constructor <;> rintro ⟨i, hi, hc⟩ <;> refine ⟨i, hi, ?_⟩
      · have hne : ¬(i = j ∧ j < 2048) := fun e => hj (e.1 ▸ hi)
        rwa [Screen.cell_flip, if_neg hne] at hc
      · have hne : ¬(i = j ∧ j < 2048) := fun e => hj (e.1 ▸ hi)
        rwa [Screen.cell_flip, if_neg hne]
    simp only [this, List.any_cons, Bool.or_assoc]

/-- The screen after drawing distinct cells. -/
theorem Screen.cell_drawCells (fb : Screen) {cells : List Nat} (hn : cells.Nodup) (hb : ∀ j ∈ cells, j < 2048) (k : Nat) :
    (fb.drawCells cells).1.cell k = (fb.cell k ^^ decide (k ∈ cells)) :=
  Screen.cell_foldl_flip cells hn hb (fb, false) k

/-- The collision of drawing distinct cells: some drawn cell was lit before. -/
theorem Screen.collision_drawCells (fb : Screen) {cells : List Nat} (hn : cells.Nodup) :
    (fb.drawCells cells).2 = cells.any fun j => fb.cell j := by
  simpa [Screen.drawCells] using Screen.collision_foldl_flip cells hn (fb, false)

/-! ### The cells of a sprite -/

theorem mem_rowCells {x0 py : Nat} {b : Byte} {j : Nat} :
    j ∈ rowCells x0 py b ↔ ∃ c, c < 8 ∧ b.getLsbD (7 - c) = true ∧ x0 + c ≤ 63 ∧ py ≤ 31 ∧ j = py * 64 + (x0 + c) := by
  simp only [rowCells, List.mem_filterMap, List.mem_range]
  constructor
  · rintro ⟨c, hc, h⟩
    split at h
    · next hcond =>
      simp only [Bool.and_eq_true, decide_eq_true_eq] at hcond
      exact ⟨c, hc, hcond.1.1, hcond.1.2, hcond.2, by simpa using h.symm⟩
    · simp at h
  · rintro ⟨c, hc, hb, hx, hy, rfl⟩
    exact ⟨c, hc, by simp [hb, hx, hy]⟩

/-- The cells of a sprite: one for each on-canvas set bit (R121 to R123). -/
theorem mem_spriteCells {x0 py : Nat} {rows : List Byte} {j : Nat} :
    j ∈ spriteCells x0 py rows ↔
      ∃ r c, ∃ h : r < rows.length, c < 8 ∧ rows[r].getLsbD (7 - c) = true ∧ x0 + c ≤ 63 ∧ py + r ≤ 31 ∧
        j = (py + r) * 64 + (x0 + c) := by
  induction rows generalizing py with
  | nil => simp [spriteCells]
  | cons b rows ih =>
    simp only [spriteCells, List.mem_append, mem_rowCells, ih]
    constructor
    · rintro (⟨c, hc, hb, hx, hy, rfl⟩ | ⟨r, c, hr, hc, hb, hx, hy, rfl⟩)
      · exact ⟨0, c, by simp, hc, by simpa using hb, hx, by omega, by simp⟩
      · exact ⟨r + 1, c, by simpa using hr, hc, by simpa using hb, hx, by omega, by omega⟩
    · rintro ⟨r, c, hr, hc, hb, hx, hy, rfl⟩
      cases r with
      | zero => exact Or.inl ⟨c, hc, by simpa using hb, hx, by omega, by simp⟩
      | succ r => exact Or.inr ⟨r, c, by simpa using hr, hc, by simpa using hb, hx, by omega, by omega⟩

theorem rowCells_nodup (x0 py : Nat) (b : Byte) : (rowCells x0 py b).Nodup := by
  refine List.Nodup.filterMap ?_ List.nodup_range
  intro c c' j h h'
  simp only [Option.mem_def] at h h'
  split at h <;> split at h' <;> simp at h h'
  omega

theorem spriteCells_nodup (x0 py : Nat) (rows : List Byte) : (spriteCells x0 py rows).Nodup := by
  induction rows generalizing py with
  | nil => simp [spriteCells]
  | cons b rows ih =>
    refine List.nodup_append.mpr ⟨rowCells_nodup _ _ _, ih _, ?_⟩
    intro j hj k hk
    obtain ⟨c, _, _, _, _, rfl⟩ := mem_rowCells.mp hj
    obtain ⟨r, c', _, _, _, _, _, rfl⟩ := mem_spriteCells.mp hk
    omega

theorem spriteCells_bounded (x0 py : Nat) (rows : List Byte) : ∀ j ∈ spriteCells x0 py rows, j < 2048 := by
  intro j hj
  obtain ⟨r, c, _, _, _, hx, hy, rfl⟩ := mem_spriteCells.mp hj
  omega

end Sys2Proof.Machine
end

