-- ==== Sys2Proof/Laws/HostOps.lean ====
section
/-! SUPPORT. Schedules of interface operations: what a longer one does in terms of shorter ones, the induction over a
schedule and over a run, once, and the runs of `Sys2Proof.core` as the schedules of steps alone. -/

namespace Sys2Proof.Machine

@[simp] theorem performAll_nil (s : State) : performAll [] s = .next (s, []) := rfl

/-- Everything a schedule that begins with `o` can do, when it answers a next state. -/
theorem performAll_cons_eq_next {o : Op} {os : List Op} {s u : State} {rs : List Reply} :
    performAll (o :: os) s = .next (u, rs) ↔
      ∃ t r rs', perform o s = .next (t, r) ∧ performAll os t = .next (u, rs') ∧ rs = r :: rs' := by
  rw [performAll]
  cases perform o s with
  | next p =>
    obtain ⟨t, r⟩ := p
    cases hq : performAll os t with
    | next q =>
      obtain ⟨v, rs'⟩ := q
      constructor
      · intro h
        simp only [hq, Host.Outcome.next.injEq, Prod.mk.injEq] at h
        exact ⟨t, r, rs', rfl, by rw [hq, h.1], h.2.symm⟩
      · rintro ⟨t', r', rs'', h, h', rfl⟩
        simp only [Host.Outcome.next.injEq, Prod.mk.injEq] at h
        obtain ⟨rfl, rfl⟩ := h
        simp only [hq, Host.Outcome.next.injEq, Prod.mk.injEq] at h'
        obtain ⟨rfl, rfl⟩ := h'
        simp only [hq]
    | fault f => constructor <;> simp_all
    | refused f => constructor <;> simp_all
  | fault f => simp
  | refused f => simp

/-- A schedule in two parts runs the second from the state that the first left. -/
theorem performAll_append {os os' : List Op} {s t u : State} {rs rs' : List Reply}
    (h : performAll os s = .next (t, rs)) (h' : performAll os' t = .next (u, rs')) :
    performAll (os ++ os') s = .next (u, rs ++ rs') := by
  induction os generalizing s rs with
  | nil =>
    rw [performAll_nil, Host.Outcome.next.injEq, Prod.mk.injEq] at h
    obtain ⟨rfl, rfl⟩ := h
    exact h'
  | cons o os ih =>
    obtain ⟨v, r, rs₀, hv, hrest, rfl⟩ := performAll_cons_eq_next.mp h
    exact performAll_cons_eq_next.mpr ⟨v, r, rs₀ ++ rs', hv, ih hrest, rfl⟩

/-- What every operation of a schedule keeps, the schedule keeps. -/
theorem performAll_keeps {P : State → Prop} {os : List Op}
    (keep : ∀ o ∈ os, ∀ s t r, P s → perform o s = .next (t, r) → P t) {s t : State} {rs : List Reply}
    (hs : P s) (h : performAll os s = .next (t, rs)) : P t := by
  induction os generalizing s rs with
  | nil =>
    rw [performAll_nil, Host.Outcome.next.injEq, Prod.mk.injEq] at h
    exact h.1 ▸ hs
  | cons o os ih =>
    obtain ⟨v, r, _, hv, hrest, _⟩ := performAll_cons_eq_next.mp h
    exact ih (fun o' ho' => keep o' (List.mem_cons_of_mem _ ho')) (keep o List.mem_cons_self _ _ _ hs hv) hrest

/-- What `initialize()` establishes and every operation keeps holds after every operation of a run. -/
theorem IsRun.induction {ops : Nat → Op} {states : Nat → State} {replies : Nat → Reply} (run : IsRun ops states replies)
    {P : State → Prop} (start : ∀ s : State, P s.initialise)
    (keep : ∀ o s t r, P s → perform o s = .next (t, r) → P t) (n : Nat) : P (states (n + 1)) := by
  induction n with
  | zero =>
    have h := run.follows 0
    rw [run.first] at h
    have hs : (states 0).initialise = states 1 := congrArg Prod.fst (Host.Outcome.next.inj h)
    exact hs ▸ start _
  | succ n ih => exact keep _ _ _ _ ih (run.follows (n + 1))

/-- The first `n` operations of a run are a finite schedule that answers the run's state and replies. -/
theorem IsRun.performAll_take {ops : Nat → Op} {states : Nat → State} {replies : Nat → Reply}
    (run : IsRun ops states replies) (n : Nat) :
    performAll ((List.range n).map ops) (states 0) = .next (states n, (List.range n).map replies) := by
  induction n with
  | zero => rfl
  | succ n ih =>
    rw [List.range_succ, List.map_append, List.map_append]
    exact performAll_append ih (performAll_cons_eq_next.mpr ⟨_, _, [], run.follows n, rfl, rfl⟩)

/-- A bare step is the operation `step`, with its StepResult as the reply. -/
theorem perform_step_eq_next {s t : State} {r : Reply} :
    perform .step s = .next (t, r) ↔ step s = .next t ∧ r = .stepped (stepResult s t) := by
  rw [perform]
  cases step s with
  | next u =>
    simp only [Host.Outcome.next.injEq, Prod.mk.injEq]
    constructor <;> (rintro ⟨rfl, rfl⟩; exact ⟨rfl, rfl⟩)
  | fault f => simp
  | refused f => simp

/-- A run of `Sys2Proof.core` is the schedule in which the host invokes nothing but `step` (log 16). -/
theorem core_run_eq_next_iff (n : Nat) (s t : State) :
    Sys2Proof.core.run n s = .next t ↔ ∃ rs, performAll (List.replicate n .step) s = .next (t, rs) := by
  induction n generalizing s with
  | zero =>
    constructor
    · intro h
      have same : s = t := Host.Outcome.next.inj h
      exact ⟨[], by rw [same]; rfl⟩
    · rintro ⟨_, h⟩
      have same : s = t := congrArg Prod.fst (Host.Outcome.next.inj h)
      rw [same]; rfl
  | succ n ih =>
    have unrolled : Sys2Proof.core.run (n + 1) s = .next t ↔
        ∃ u, step s = .next u ∧ Sys2Proof.core.run n u = .next t := by
      rw [Host.Core.run.eq_2 Sys2Proof.core s n, show Sys2Proof.core.step s = step s from rfl]
      cases step s with
      | next v => exact ⟨fun h => ⟨v, rfl, h⟩, fun ⟨_, hv, h⟩ => Host.Outcome.next.inj hv ▸ h⟩
      | fault f => exact ⟨nofun, nofun⟩
      | refused f => exact ⟨nofun, nofun⟩
    rw [unrolled, List.replicate_succ]
    constructor
    · rintro ⟨u, hu, hrun⟩
      obtain ⟨rs, hrest⟩ := (ih u).mp hrun
      exact ⟨_, performAll_cons_eq_next.mpr ⟨u, _, rs, perform_step_eq_next.mpr ⟨hu, rfl⟩, hrest, rfl⟩⟩
    · rintro ⟨_, h⟩
      obtain ⟨u, _, rs, hu, hrest, _⟩ := performAll_cons_eq_next.mp h
      exact ⟨u, (perform_step_eq_next.mp hu).1, (ih u).mpr ⟨rs, hrest⟩⟩

end Sys2Proof.Machine
end

