-- ==== Sys2Proof/Laws/PerInstr.lean ====
section
/-! SUPPORT. One law per instruction, of the family RowMatch: the instruction's row is a row of the opcode map
30_encoding.md R65, and the word the encoder writes for the instruction has that row's fixed bits. -/

namespace Sys2Proof.Laws.RowMatch

def Statement (i : Instr) : Prop := i.row ∈ opcodeMap ∧ i.row.selects (encode i) = true

/-- A word whose masked bits are the row's is selected by the row. -/
theorem selects_of_bits {r : OpcodeRow} {w : Word}
    (h : ∀ i : Fin 16, (w.getLsbD i && r.mask.getLsbD i) = r.pattern.getLsbD i) : r.selects w = true := by
  have : w &&& r.mask = r.pattern := by
    apply BitVec.eq_of_getLsbD_eq
    intro i hi
    simpa using h ⟨i, hi⟩
  simp [OpcodeRow.selects, this]

theorem cls : Statement .cls := by
  exact ⟨by decide, by decide⟩

theorem ret : Statement .ret := by
  exact ⟨by decide, by decide⟩

theorem jp (nnn : Addr12) : Statement (.jp nnn) := by
  refine ⟨by simp [Instr.row, opcodeMap], selects_of_bits fun i => ?_⟩
  fin_cases i <;> simp only [encode, Instr.row, BitVec.getLsbD_append] <;> simp

theorem call (nnn : Addr12) : Statement (.call nnn) := by
  refine ⟨by simp [Instr.row, opcodeMap], selects_of_bits fun i => ?_⟩
  fin_cases i <;> simp only [encode, Instr.row, BitVec.getLsbD_append] <;> simp

theorem seImm (x : Nibble) (nn : Byte) : Statement (.seImm x nn) := by
  refine ⟨by simp [Instr.row, opcodeMap], selects_of_bits fun i => ?_⟩
  fin_cases i <;> simp only [encode, Instr.row, BitVec.getLsbD_append] <;> simp

theorem sneImm (x : Nibble) (nn : Byte) : Statement (.sneImm x nn) := by
  refine ⟨by simp [Instr.row, opcodeMap], selects_of_bits fun i => ?_⟩
  fin_cases i <;> simp only [encode, Instr.row, BitVec.getLsbD_append] <;> simp

theorem seReg (x y : Nibble) : Statement (.seReg x y) := by
  refine ⟨by simp [Instr.row, opcodeMap], selects_of_bits fun i => ?_⟩
  fin_cases i <;> simp only [encode, Instr.row, BitVec.getLsbD_append] <;> simp

theorem ldImm (x : Nibble) (nn : Byte) : Statement (.ldImm x nn) := by
  refine ⟨by simp [Instr.row, opcodeMap], selects_of_bits fun i => ?_⟩
  fin_cases i <;> simp only [encode, Instr.row, BitVec.getLsbD_append] <;> simp

theorem addImm (x : Nibble) (nn : Byte) : Statement (.addImm x nn) := by
  refine ⟨by simp [Instr.row, opcodeMap], selects_of_bits fun i => ?_⟩
  fin_cases i <;> simp only [encode, Instr.row, BitVec.getLsbD_append] <;> simp

theorem ldReg (x y : Nibble) : Statement (.ldReg x y) := by
  refine ⟨by simp [Instr.row, opcodeMap], selects_of_bits fun i => ?_⟩
  fin_cases i <;> simp only [encode, Instr.row, BitVec.getLsbD_append] <;> simp

theorem orReg (x y : Nibble) : Statement (.orReg x y) := by
  refine ⟨by simp [Instr.row, opcodeMap], selects_of_bits fun i => ?_⟩
  fin_cases i <;> simp only [encode, Instr.row, BitVec.getLsbD_append] <;> simp

theorem andReg (x y : Nibble) : Statement (.andReg x y) := by
  refine ⟨by simp [Instr.row, opcodeMap], selects_of_bits fun i => ?_⟩
  fin_cases i <;> simp only [encode, Instr.row, BitVec.getLsbD_append] <;> simp

theorem xorReg (x y : Nibble) : Statement (.xorReg x y) := by
  refine ⟨by simp [Instr.row, opcodeMap], selects_of_bits fun i => ?_⟩
  fin_cases i <;> simp only [encode, Instr.row, BitVec.getLsbD_append] <;> simp

theorem addReg (x y : Nibble) : Statement (.addReg x y) := by
  refine ⟨by simp [Instr.row, opcodeMap], selects_of_bits fun i => ?_⟩
  fin_cases i <;> simp only [encode, Instr.row, BitVec.getLsbD_append] <;> simp

theorem subReg (x y : Nibble) : Statement (.subReg x y) := by
  refine ⟨by simp [Instr.row, opcodeMap], selects_of_bits fun i => ?_⟩
  fin_cases i <;> simp only [encode, Instr.row, BitVec.getLsbD_append] <;> simp

theorem shr (x : Nibble) : Statement (.shr x) := by
  refine ⟨by simp [Instr.row, opcodeMap], selects_of_bits fun i => ?_⟩
  fin_cases i <;> simp only [encode, Instr.row, BitVec.getLsbD_append] <;> simp

theorem subnReg (x y : Nibble) : Statement (.subnReg x y) := by
  refine ⟨by simp [Instr.row, opcodeMap], selects_of_bits fun i => ?_⟩
  fin_cases i <;> simp only [encode, Instr.row, BitVec.getLsbD_append] <;> simp

theorem shl (x : Nibble) : Statement (.shl x) := by
  refine ⟨by simp [Instr.row, opcodeMap], selects_of_bits fun i => ?_⟩
  fin_cases i <;> simp only [encode, Instr.row, BitVec.getLsbD_append] <;> simp

theorem sneReg (x y : Nibble) : Statement (.sneReg x y) := by
  refine ⟨by simp [Instr.row, opcodeMap], selects_of_bits fun i => ?_⟩
  fin_cases i <;> simp only [encode, Instr.row, BitVec.getLsbD_append] <;> simp

theorem ldI (nnn : Addr12) : Statement (.ldI nnn) := by
  refine ⟨by simp [Instr.row, opcodeMap], selects_of_bits fun i => ?_⟩
  fin_cases i <;> simp only [encode, Instr.row, BitVec.getLsbD_append] <;> simp

theorem jpV0 (nnn : Addr12) : Statement (.jpV0 nnn) := by
  refine ⟨by simp [Instr.row, opcodeMap], selects_of_bits fun i => ?_⟩
  fin_cases i <;> simp only [encode, Instr.row, BitVec.getLsbD_append] <;> simp

theorem rnd (x : Nibble) (nn : Byte) : Statement (.rnd x nn) := by
  refine ⟨by simp [Instr.row, opcodeMap], selects_of_bits fun i => ?_⟩
  fin_cases i <;> simp only [encode, Instr.row, BitVec.getLsbD_append] <;> simp

theorem drw (x y n : Nibble) : Statement (.drw x y n) := by
  refine ⟨by simp [Instr.row, opcodeMap], selects_of_bits fun i => ?_⟩
  fin_cases i <;> simp only [encode, Instr.row, BitVec.getLsbD_append] <;> simp

theorem skp (x : Nibble) : Statement (.skp x) := by
  refine ⟨by simp [Instr.row, opcodeMap], selects_of_bits fun i => ?_⟩
  fin_cases i <;> simp only [encode, Instr.row, BitVec.getLsbD_append] <;> simp

theorem sknp (x : Nibble) : Statement (.sknp x) := by
  refine ⟨by simp [Instr.row, opcodeMap], selects_of_bits fun i => ?_⟩
  fin_cases i <;> simp only [encode, Instr.row, BitVec.getLsbD_append] <;> simp

theorem ldVxDt (x : Nibble) : Statement (.ldVxDt x) := by
  refine ⟨by simp [Instr.row, opcodeMap], selects_of_bits fun i => ?_⟩
  fin_cases i <;> simp only [encode, Instr.row, BitVec.getLsbD_append] <;> simp

theorem ldVxK (x : Nibble) : Statement (.ldVxK x) := by
  refine ⟨by simp [Instr.row, opcodeMap], selects_of_bits fun i => ?_⟩
  fin_cases i <;> simp only [encode, Instr.row, BitVec.getLsbD_append] <;> simp

theorem ldDtVx (x : Nibble) : Statement (.ldDtVx x) := by
  refine ⟨by simp [Instr.row, opcodeMap], selects_of_bits fun i => ?_⟩
  fin_cases i <;> simp only [encode, Instr.row, BitVec.getLsbD_append] <;> simp

theorem ldStVx (x : Nibble) : Statement (.ldStVx x) := by
  refine ⟨by simp [Instr.row, opcodeMap], selects_of_bits fun i => ?_⟩
  fin_cases i <;> simp only [encode, Instr.row, BitVec.getLsbD_append] <;> simp

theorem addI (x : Nibble) : Statement (.addI x) := by
  refine ⟨by simp [Instr.row, opcodeMap], selects_of_bits fun i => ?_⟩
  fin_cases i <;> simp only [encode, Instr.row, BitVec.getLsbD_append] <;> simp

theorem ldF (x : Nibble) : Statement (.ldF x) := by
  refine ⟨by simp [Instr.row, opcodeMap], selects_of_bits fun i => ?_⟩
  fin_cases i <;> simp only [encode, Instr.row, BitVec.getLsbD_append] <;> simp

theorem ldB (x : Nibble) : Statement (.ldB x) := by
  refine ⟨by simp [Instr.row, opcodeMap], selects_of_bits fun i => ?_⟩
  fin_cases i <;> simp only [encode, Instr.row, BitVec.getLsbD_append] <;> simp

theorem storeRegs (x : Nibble) : Statement (.storeRegs x) := by
  refine ⟨by simp [Instr.row, opcodeMap], selects_of_bits fun i => ?_⟩
  fin_cases i <;> simp only [encode, Instr.row, BitVec.getLsbD_append] <;> simp

theorem loadRegs (x : Nibble) : Statement (.loadRegs x) := by
  refine ⟨by simp [Instr.row, opcodeMap], selects_of_bits fun i => ?_⟩
  fin_cases i <;> simp only [encode, Instr.row, BitVec.getLsbD_append] <;> simp

end Sys2Proof.Laws.RowMatch
end

