-- ==== Sys2Proof/Tests/Slice0.lean ====
section
/-! SUPPORT. Tests. Expected results are those of spec/95_test_vectors.md (a comment names the vector) or, where a
comment says so, of the example in a rule. The witnesses at the end meet the hypotheses of the statements. -/

namespace Sys2Proof.Tests

open Sys2Proof.Machine

/-- The state after one step. -/
def after (s : State) : State :=
  match step s with
  | .next t => t
  | _ => s

/-- What one step returns. -/
def result (s : State) : StepResult := stepResult s (after s)

/-- The reset state with an instruction word at 0x200. -/
def word (w : Nat) : State := State.reset.withFetchWord 16 w

/-- A framebuffer with the listed pixels lit. -/
def lit (ps : List (Nat × Nat)) : Screen := ps.foldl (fun fb p => fb.flip (p.2 * 64 + p.1)) Screen.blank

/-- Whether an answer is the given next state. -/
def answers {α : Type} [DecidableEq α] (o : Host.Outcome α Fault Refusal) (t : α) : Bool :=
  match o with
  | .next u => decide (u = t)
  | _ => false

theorem eq_of_answers {α : Type} [DecidableEq α] {o : Host.Outcome α Fault Refusal} {t : α} (h : answers o t = true) :
    o = .next t := by
  cases o with
  | next u => exact congrArg _ (of_decide_eq_true h)
  | fault r => cases r
  | refused r => exact absurd h Bool.false_ne_true

/-- Registers `V[i] = 10 + i` (hexadecimal), as the vectors K27 to K29 have them. -/
def countUp : Vector Byte 16 :=
  #v[0x10, 0x11, 0x12, 0x13, 0x14, 0x15, 0x16, 0x17, 0x18, 0x19, 0x1A, 0x1B, 0x1C, 0x1D, 0x1E, 0x1F]

/-! ## WellFormed: one word that each check refuses, and one that it accepts -/

/-- Every term of `Instr` is well formed by its types; what can be ill-formed is a word (30_encoding.md R66 to R70). -/
theorem test_wf_family_0 : legalWord 0x01E0 = false ∧ legalWord 0x00E0 = true := by decide
theorem test_wf_family_8 : legalWord 0x8AB8 = false ∧ legalWord 0x8ABE = true := by decide
theorem test_wf_family_E : legalWord 0xE09F = false ∧ legalWord 0xE0A1 = true := by decide
theorem test_wf_family_F : legalWord 0xF075 = false ∧ legalWord 0xFF65 = true := by decide
theorem test_wf_other_families : legalWord 0x5ABF = true ∧ legalWord 0xD000 = true := by decide

/-! ## Decode: each constructor from a word written out from the opcode map R65, and section 2.1 of the vectors -/

theorem test_decode_family_0 : decode 0b0000000011100000 = some .cls ∧ decode 0b0000000011101110 = some .ret := by decide
theorem test_decode_nnn :
    decode 0b0001111111111111 = some (.jp 0xFFF) ∧ decode 0b0010000000000000 = some (.call 0) ∧
    decode 0b1010001100000000 = some (.ldI 0x300) ∧ decode 0b1011111111111111 = some (.jpV0 0xFFF) := by decide
theorem test_decode_xnn :
    decode 0b0011101001111111 = some (.seImm 0xA 0x7F) ∧ decode 0b0100101001111111 = some (.sneImm 0xA 0x7F) ∧
    decode 0b0110000100000101 = some (.ldImm 1 5) ∧ decode 0b0111000011111111 = some (.addImm 0 0xFF) ∧
    decode 0b1100000100001111 = some (.rnd 1 0x0F) := by decide
theorem test_decode_xy :
    decode 0b0101101010111111 = some (.seReg 0xA 0xB) ∧ decode 0b1001101010110111 = some (.sneReg 0xA 0xB) ∧
    decode 0b1101101010110011 = some (.drw 0xA 0xB 3) := by decide
theorem test_decode_family_8 :
    decode 0b1000000100100000 = some (.ldReg 1 2) ∧ decode 0b1000000100100001 = some (.orReg 1 2) ∧
    decode 0b1000000100100010 = some (.andReg 1 2) ∧ decode 0b1000000100100011 = some (.xorReg 1 2) ∧
    decode 0b1000000000010100 = some (.addReg 0 1) ∧ decode 0b1000000100100101 = some (.subReg 1 2) := by decide
theorem test_decode_family_8_rest :
    decode 0b1000101010110110 = some (.shr 0xA) ∧ decode 0b1000000100100111 = some (.subnReg 1 2) ∧
    decode 0b1000101010111110 = some (.shl 0xA) := by decide
theorem test_decode_family_E :
    decode 0b1110111110011110 = some (.skp 0xF) ∧ decode 0b1110000010100001 = some (.sknp 0) := by decide
theorem test_decode_family_F :
    decode 0b1111000100000111 = some (.ldVxDt 1) ∧ decode 0b1111000000001010 = some (.ldVxK 0) ∧
    decode 0b1111000000010101 = some (.ldDtVx 0) ∧ decode 0b1111000000011000 = some (.ldStVx 0) ∧
    decode 0b1111001000011110 = some (.addI 2) := by decide
theorem test_decode_family_F_rest :
    decode 0b1111000000101001 = some (.ldF 0) ∧ decode 0b1111000000110011 = some (.ldB 0) ∧
    decode 0b1111000101010101 = some (.storeRegs 1) ∧ decode 0b1111111101100101 = some (.loadRegs 0xF) := by decide
theorem test_decode_unknown :
    [0x0000, 0x00E1, 0x01E0, 0x0123, 0x00FD, 0x00FF, 0x8AB8, 0x8ABD, 0x8ABF, 0xE09F, 0xE000, 0xEA9D].all
      (fun w => (decode w).isNone) = true := by decide
theorem test_decode_unknown_family_F :
    [0xF000, 0xF1FF, 0xF075, 0xF085, 0xF030, 0xF00B].all (fun w => (decode w).isNone) = true := by decide
theorem test_decode_bytes :
    decodeBytes [0x60, 0x05, 0x61] = .instr (.ldImm 0 5) [0x61] ∧ decodeBytes [0x01, 0x23] = .unknownOpcode 0x0123 ∧
    decodeBytes [0x60] = .truncated := by decide
theorem test_decode_table_word :
    decodeTableWord 16 0x00EE = some .ret ∧ decodeTableWord 16 0xF265 = some (.loadRegs 2) ∧
    decodeTableWord 16 0x0123 = none := by decide
theorem test_encode : encode (.drw 0xA 0xB 3) = 0xDAB3 ∧ encode (.seReg 1 2) = 0x5120 ∧ encode (.shr 3) = 0x8306 := by
  decide

/-! ## Control transfer (vectors C1 to C23) -/

/-- C1 -/
theorem test_ret :
    let t := after { word 0 with stack := (State.reset.stack.set 0 0x202).set 1 0x30A, sp := 2, pc := 0x400,
                                 mem := [(0x401, 0xEE)] }
    t.sp = 1 ∧ t.pc = 0x30C := by decide
/-- C2 -/
theorem test_ret_empty : result (word 0x00EE) = .fault .stackUnderflow ∧ (after (word 0x00EE)).pc = 0x200 := by decide
/-- C3, C4, C5 -/
theorem test_jp :
    (after (word 0x1FFF)).pc = 0xFFF ∧ (after (word 0x1301)).pc = 0x301 ∧ (after (word 0x1200)).pc = 0x200 := by decide
/-- C6 -/
theorem test_call :
    let t := after ({ State.reset with sp := 15, pc := 0x3F0 }.withFetchWord 16 0x2ABC)
    t.stack[15] = 0x3F0 ∧ t.sp = 16 ∧ t.pc = 0xABC := by decide
/-- C7 -/
theorem test_call_full :
    let s := { State.reset with sp := 16, pc := 0x3F0 }.withFetchWord 16 0x2ABC
    result s = .fault .stackOverflow ∧ (after s).sp = 16 ∧ (after s).pc = 0x3F0 := by decide
/-- C8, C9 -/
theorem test_se_imm :
    (after ((word 0x3A7F).setReg 10 0x7F)).pc = 0x204 ∧ (after ((word 0x3A7F).setReg 10 0x80)).pc = 0x202 := by decide
/-- C10, C11 -/
theorem test_sne_imm :
    (after ((word 0x4A7F).setReg 10 0x7F)).pc = 0x202 ∧ (after ((word 0x4A7F).setReg 10 0x80)).pc = 0x204 := by decide
/-- C12, C13, C14 -/
theorem test_se_reg :
    (after ((word 0x5AA0).setReg 10 9)).pc = 0x204 ∧
    (after (((word 0x5AB0).setReg 10 9).setReg 11 8)).pc = 0x202 ∧
    (after (((word 0x5ABF).setReg 10 9).setReg 11 9)).pc = 0x204 := by decide
/-- C15, C16, C17 -/
theorem test_sne_reg :
    (after (((word 0x9AB0).setReg 10 9).setReg 11 8)).pc = 0x204 ∧ (after ((word 0x9AA0).setReg 10 9)).pc = 0x202 ∧
    (after (((word 0x9AB7).setReg 10 9).setReg 11 8)).pc = 0x204 := by decide
/-- C19, C20 -/
theorem test_jp_v0 :
    (after ((word 0xB300).setReg 0 0x10)).pc = 0x310 ∧ (after ((word 0xBFFF).setReg 0 0xFF)).pc = 0x10FE := by decide
/-- C22 -/
theorem test_skip_past_memory :
    (after ({ State.reset with pc := 0xFFE }.withFetchWord 16 0x3000)).pc = 0x1002 := by decide

/-! ## Register and ALU (vectors A1 to A36) -/

/-- A1 -/
theorem test_ld_imm : (after (word 0x6FAB)).reg 15 = 0xAB ∧ (after (word 0x6FAB)).pc = 0x202 := by decide
/-- A2 -/
theorem test_add_imm_wraps :
    let t := after (((word 0x7001).setReg 0 0xFF).setReg 15 7)
    t.reg 0 = 0 ∧ t.reg 15 = 7 := by decide
/-- A3 -/
theorem test_add_imm_vf : (after ((word 0x7F02).setReg 15 0xFF)).reg 15 = 1 := by decide
/-- A4 -/
theorem test_ld_reg : (after (((word 0x8AB0).setReg 10 1).setReg 11 0xEE)).reg 10 = 0xEE := by decide
/-- A5 -/
theorem test_or :
    let t := after ((((word 0x8AB1).setReg 10 0x0F).setReg 11 0xF0).setReg 15 5)
    t.reg 10 = 0xFF ∧ t.reg 15 = 5 := by decide
/-- A6 -/
theorem test_and :
    let t := after ((((word 0x8AB2).setReg 10 0x3C).setReg 11 0x0F).setReg 15 5)
    t.reg 10 = 0x0C ∧ t.reg 15 = 5 := by decide
/-- A7; and the example of R105 -/
theorem test_xor :
    (after ((word 0x8AA3).setReg 10 0x5A)).reg 10 = 0 ∧
    (after (((word 0x8123).setReg 1 0xF0).setReg 2 0x3C)).reg 1 = 0xCC := by decide
/-- A8, A9 -/
theorem test_add :
    let t := after (((word 0x8AB4).setReg 10 0xFF).setReg 11 1)
    let u := after ((((word 0x8AB4).setReg 10 0x80).setReg 11 0x7F).setReg 15 1)
    t.reg 10 = 0 ∧ t.reg 15 = 1 ∧ u.reg 10 = 0xFF ∧ u.reg 15 = 0 := by decide
/-- A12, A14 -/
theorem test_add_vf :
    let t := after (((word 0x8AF4).setReg 10 0xFF).setReg 15 1)
    let u := after (((word 0x8FA4).setReg 15 0xF0).setReg 10 0x20)
    t.reg 10 = 0 ∧ t.reg 15 = 1 ∧ u.reg 15 = 1 ∧ u.reg 10 = 0x20 := by decide
/-- A20, A21 -/
theorem test_sub :
    let t := after (((word 0x8AB5).setReg 10 7).setReg 11 7)
    let u := after (((word 0x8AB5).setReg 10 0).setReg 11 1)
    t.reg 10 = 0 ∧ t.reg 15 = 1 ∧ u.reg 10 = 0xFF ∧ u.reg 15 = 0 := by decide
/-- A17, A18 -/
theorem test_sub_vf :
    (after (((word 0x8FA5).setReg 15 5).setReg 10 3)).reg 15 = 1 ∧
    (after (((word 0x8FA5).setReg 15 3).setReg 10 5)).reg 15 = 0 := by decide
/-- A26, A27 -/
theorem test_shr :
    let t := after (((word 0x8AB6).setReg 10 0xFE).setReg 15 1)
    t.reg 10 = 0x7F ∧ t.reg 15 = 0 ∧ (after ((word 0x8FB6).setReg 15 3)).reg 15 = 1 := by decide
/-- A25 -/
theorem test_shr_ignores_y :
    let t := after (((word 0x8AB6).setReg 10 1).setReg 11 0xFF)
    t.reg 10 = 0 ∧ t.reg 15 = 1 ∧ t.reg 11 = 0xFF := by decide
/-- A22, A24 -/
theorem test_subn :
    let t := after (((word 0x8AB7).setReg 10 1).setReg 11 0)
    let u := after (((word 0x8AB7).setReg 10 0x10).setReg 11 0x20)
    t.reg 10 = 0xFF ∧ t.reg 15 = 0 ∧ u.reg 10 = 0x10 ∧ u.reg 15 = 1 := by decide
/-- A29, A30, A32 -/
theorem test_shl :
    let t := after (((word 0x8ABE).setReg 10 0x80).setReg 11 1)
    let u := after (((word 0x8ABE).setReg 10 0x7F).setReg 15 1)
    t.reg 10 = 0 ∧ t.reg 15 = 1 ∧ u.reg 10 = 0xFE ∧ u.reg 15 = 0 ∧
    (after ((word 0x8FBE).setReg 15 0x41)).reg 15 = 0 := by decide
/-- A33, A34: the drawn byte is free, so the vector's `rnd` is a hypothesis. -/
theorem test_rnd (h : Config.rndByte 0 = 0xA7) :
    execRnd 10 0x0F State.reset = .next ((State.reset.setReg 10 0x07).drawn).advance := by
  simp [execRnd, State.reset, h]
theorem test_rnd_zero_mask (s : State) : execRnd 10 0 s = .next ((s.setReg 10 0).drawn).advance := by simp [execRnd]

/-! ## Graphics (vectors G1 to G14) -/

/-- G1 -/
theorem test_cls :
    let t := after ({ word 0x00E0 with fb := lit [(0, 0), (63, 31)], redraw := false }.setReg 15 9)
    t.fb = Screen.blank ∧ t.redraw = true ∧ t.reg 15 = 9 := by decide
/-- G2 -/
theorem test_drw :
    let t := after (({ word 0xD123 with i := 0x300, redraw := false }).store 0x300 [0x80, 0x40, 0x01])
    t.fb = lit [(0, 0), (1, 1), (7, 2)] ∧ t.reg 15 = 0 ∧ t.redraw = true ∧ t.i = 0x300 := by decide
/-- G3, and G5 -/
theorem test_drw_collides_and_clips :
    let t := after (({ word 0xD121 with i := 0x300, fb := lit [(1, 0)] }).store 0x300 [0xC0])
    let u := after ((((({ word 0xD121 with i := 0x300 }).store 0x300 [0xFF])).setReg 1 0x3F).setReg 2 0x1F)
    t.fb = lit [(0, 0)] ∧ t.reg 15 = 1 ∧ u.fb = lit [(63, 31)] ∧ u.reg 15 = 0 := by decide
/-- G6, G7: neither coordinate wraps. -/
theorem test_drw_no_wrap :
    let s := ({ word 0xD121 with i := 0x300 }).store 0x300 [0xFF]
    (after (s.setReg 1 0x40)).fb = Screen.blank ∧ (after (s.setReg 2 0x20)).fb = Screen.blank := by decide
/-- G9 -/
theorem test_drw_no_rows :
    let t := after ({ word 0xD120 with i := 0xFFFF, redraw := false }.setReg 15 1)
    t.fault = none ∧ t.fb = Screen.blank ∧ t.reg 15 = 0 ∧ t.redraw = true ∧ t.pc = 0x202 := by decide
/-- G12: row 0 is not drawn either. -/
theorem test_drw_outside_memory :
    let s := (((({ word 0xD122 with i := 0xFFF, redraw := false }).store 0xFFF [0x80])).setReg 2 0x1F).setReg 15 7
    result s = .fault .memoryFault ∧ after s = s.raise .memoryFault := by decide

/-! ## Keys, timers, index register, memory block (vectors K1 to K33) -/

/-- K1, K2, K3 -/
theorem test_skp :
    (after (((word 0xEA9E).setReg 10 0x0F).setKey 15 true)).pc = 0x204 ∧
    (after ((word 0xEA9E).setReg 10 0x0F)).pc = 0x202 ∧
    (after (((word 0xEA9E).setReg 10 0x13).setKey 3 true)).pc = 0x202 := by decide
/-- K4, K5, K6 -/
theorem test_sknp :
    (after ((word 0xEAA1).setKey 0 true)).pc = 0x202 ∧ (after (word 0xEAA1)).pc = 0x204 ∧
    (after (((word 0xEAA1).setReg 10 0x13).setKey 3 true)).pc = 0x204 := by decide
/-- K7 -/
theorem test_ld_vx_dt : (after ((word 0xFA07).setDt 0xFF)).reg 10 = 0xFF := by decide
/-- K9 -/
theorem test_ld_dt_vx : (after ((word 0xFA15).setReg 10 0xFF)).dt = 0xFF := by decide
/-- K10 -/
theorem test_ld_st_vx : (after ((word 0xFA18).setSt 5)).st = 0 ∧ (after (word 0xFA18)).pc = 0x202 := by decide
/-- K11 -/
theorem test_ld_vx_k :
    let t := after ((word 0xFF0A).setKey 4 true)
    t.wait = .awaitingKey 15 ∧ t.pc = 0x200 := by decide
/-- K12 -/
theorem test_ld_i : (after (word 0xAFFF)).i = 0xFFF := by decide
/-- K13, K15 -/
theorem test_add_i :
    let t := after ({ word 0xFA1E with i := 0xFFF }.setReg 10 1)
    t.i = 0x1000 ∧ t.reg 15 = 0 ∧ t.fault = none ∧
    (after ({ word 0xFA1E with i := 0xFF01 }.setReg 10 0xFF)).i = 0 := by decide
/-- K17, K18 -/
theorem test_ld_f :
    (after ((word 0xFA29).setReg 10 0x0F)).i = 0x4B ∧ (after ((word 0xFA29).setReg 10 0x1A)).i = 0x32 := by decide
/-- K20, K22 -/
theorem test_ld_b :
    let t := after ({ word 0xFA33 with i := 0x300 }.setReg 10 0xFF)
    let u := after ({ word 0xFA33 with i := 0x300 }.setReg 10 0x6D)
    t.mem.readBytes 0x300 3 = [2, 5, 5] ∧ t.i = 0x300 ∧ u.mem.readBytes 0x300 3 = [1, 0, 9] := by decide
/-- K23, K24 -/
theorem test_ld_b_at_the_top :
    (after ({ word 0xFA33 with i := 0xFFD }.setReg 10 7)).mem.readBytes 0xFFD 3 = [0, 0, 7] ∧
    result ({ word 0xFA33 with i := 0xFFE }.setReg 10 7) = .fault .memoryFault := by decide
/-- K25, K28 -/
theorem test_store_regs :
    let t := after ({ word 0xF055 with i := 0xFFF }.setReg 0 0xAA)
    let u := after { word 0xFF55 with i := 0xFF0, v := countUp }
    t.mem.readByte 0xFFF = 0xAA ∧ t.i = 0x1000 ∧ u.mem.readBytes 0xFF0 16 = countUp.toList ∧ u.i = 0x1000 := by decide
/-- K29 -/
theorem test_store_regs_outside_memory :
    let s := { word 0xFF55 with i := 0xFF1, v := countUp }
    result s = .fault .memoryFault ∧ after s = s.raise .memoryFault := by decide
/-- K31 -/
theorem test_load_regs :
    let t := after { word 0xFF65 with i := 0x46 }
    t.v.toList = [0xF0, 0x80, 0xF0, 0x80, 0xF0, 0xF0, 0x80, 0xF0, 0x80, 0x80, 0, 0, 0, 0, 0, 0] ∧ t.i = 0x56 := by decide
/-- K33 -/
theorem test_load_regs_outside_memory :
    let s := (({ word 0xF165 with i := 0xFFF }).setReg 0 9).setReg 1 9
    result s = .fault .memoryFault ∧ after s = s.raise .memoryFault := by decide

/-! ## The step cycle (vectors S1 to S11) -/

/-- S1, S2 -/
theorem test_unknown_word :
    result State.reset = .unknownOpcode 0 0x200 ∧ after State.reset = { State.reset with pc := 0x202, unknownSeen := true } ∧
    result { State.reset with pc := 0xFFE } = .unknownOpcode 0 0xFFE ∧ (after { State.reset with pc := 0xFFE }).pc = 0x1000 := by
  decide
/-- S3, S4 -/
theorem test_fetch_outside_memory :
    result { State.reset with pc := 0xFFF } = .fault .memoryFault ∧ (after { State.reset with pc := 0xFFF }).pc = 0xFFF ∧
    result { State.reset with pc := 0x1000 } = .fault .memoryFault := by decide
/-- S5, S8 -/
theorem test_idle :
    let s := { State.reset with fault := some .memoryFault }
    let w := { State.reset with wait := .awaitingKey 2 }
    result s = .idle ∧ after s = s ∧ result w = .idle ∧ after w = w := by decide
/-- S10 -/
theorem test_complete_wait :
    let s := { word 0x00EE with wait := .keyLatched 2 5 }
    result s = .ok ∧ (after s).reg 2 = 5 ∧ (after s).pc = 0x202 ∧ (after s).wait = .running ∧ (after s).fault = none := by
  decide

/-! ## Host operations (vectors H1 to H11, S6, S7, S9, S11, E9) -/

/-- H1, H3, H4 -/
theorem test_tick :
    (State.reset.tickTimers).2 = false ∧ (State.reset.tickTimers).1 = State.reset ∧
    ((State.reset.setSt 1).tickTimers).2 = true ∧
    (((State.reset.setDt 5).setSt 2).tickTimers).1 = (State.reset.setDt 4).setSt 1 := by decide
/-- S6 -/
theorem test_tick_faulted : (({ State.reset with fault := some .stackOverflow, dt := 2 }).tickTimers).1.dt = 1 := by decide
/-- H6, H7, S9, S11 -/
theorem test_keys :
    State.reset.keyPress 9 = State.reset.setKey 9 true ∧ (State.reset.keyPress 9).keyRelease 9 = State.reset ∧
    ({ State.reset with wait := .awaitingKey 2 }.keyRelease 5).wait = .awaitingKey 2 ∧
    ({ State.reset with wait := .keyLatched 2 5 }.keyRelease 5).wait = .keyLatched 2 5 := by decide
/-- E8 and P6: the press is latched, and a second press does not replace it. -/
theorem test_key_latch :
    let s := { State.reset with wait := .awaitingKey 1 }.keyPress 3
    s.wait = .keyLatched 1 3 ∧ (s.keyPress 7).wait = .keyLatched 1 3 ∧ s.reg 1 = 0 ∧ s.pc = 0x200 := by decide
/-- H8 -/
theorem test_consume_redraw : State.reset.consumeRedraw = { State.reset with redraw := false } := by decide
/-- H9 -/
theorem test_initialise :
    ({ (State.reset.setKey 9 true).setReg 3 0x44 with
        fb := lit [(5, 5)], fault := some .memoryFault, redraw := false }).initialise = State.reset.setKey 9 true := by
  decide
/-- H10, H11 -/
theorem test_load_program :
    ((State.reset.loadProgram [0x12, 0]).1.initialise).mem.readBytes 0x200 2 = [0, 0] ∧
    (({ State.reset with pc := 0x300, wait := .awaitingKey 1 }.loadProgram [0x60, 5]).1).mem.readBytes 0x200 2 = [0x60, 5] ∧
    (({ State.reset with pc := 0x300, wait := .awaitingKey 1 }.loadProgram [0x60, 5]).1).pc = 0x300 := by decide
/-- E9 -/
theorem test_load_program_too_large :
    State.reset.loadProgram (List.replicate 3584 0xAB) = (State.reset, .outOfBounds) :=
  if_pos (by rw [List.length_replicate]; decide)
/-- The memory map of R42: the first and the last font byte, and zero above. -/
theorem test_font :
    State.reset.mem.readBytes 0 5 = [0xF0, 0x90, 0x90, 0x90, 0xF0] ∧
    State.reset.mem.readBytes 0x4B 6 = [0xF0, 0x80, 0xF0, 0x80, 0x80, 0] := by decide
/-- A write of what an unlisted address reads as leaves no entry. -/
theorem test_memory_canonical :
    Memory.writeByte [(0x300, 5)] 0x300 0 = [] ∧ Memory.writeByte [(0x300, 5)] 0 0xF0 = [(0x300, 5)] ∧
    Memory.writeByte [(0x300, 5)] 0x2FF 7 = [(0x2FF, 7), (0x300, 5)] ∧
    Memory.writeByte [(0x300, 5)] 0x300 6 = [(0x300, 6)] := by decide

/-! ## Witnesses: states and operands that meet the hypotheses of the statements, at the boundaries of their clauses -/

theorem test_witness_OpcodeRowsAreDisjointAndSelectTheDecode :
    (Instr.drw 0 0 0).row ∈ opcodeMap ∧ (Instr.drw 0 0 0).row.selects 0xDFFF = true ∧ decode 0xDFFF = some (.drw 15 15 15) := by
  decide
theorem test_witness_FetchIsBigEndian : ({ State.reset with pc := 0xFFE } : State).pc.toNat ≤ 0xFFE := by decide
theorem test_witness_StepRunsTheDecodedInstruction :
    let s := { State.reset with pc := 0xFFE }.withFetchWord 16 0x6005
    s.fault = none ∧ s.wait = .running ∧ s.pc.toNat ≤ 0xFFE ∧
    decodeBytes [s.mem.readByte s.pc.toNat, s.mem.readByte (s.pc.toNat + 1)] = .instr (.ldImm 0 5) [] := by decide
theorem test_witness_StepIsIdleWhileStopped :
    (State.reset.raise .memoryFault).fault ≠ none ∧ (State.reset.setWait (.awaitingKey 15)).wait = .awaitingKey 15 := by
  decide
theorem test_witness_StepCompletesTheKeyWait :
    (State.reset.setWait (.keyLatched 15 3)).fault = none ∧
    (State.reset.setWait (.keyLatched 15 3)).wait = .keyLatched 15 3 := by decide
theorem test_witness_StepReportsAnUnknownWord :
    let s := { State.reset with pc := 0xFFE }
    s.fault = none ∧ s.wait = .running ∧ s.pc.toNat ≤ 0xFFE ∧
    decodeBytes [s.mem.readByte s.pc.toNat, s.mem.readByte (s.pc.toNat + 1)] = .unknownOpcode 0 := by decide
theorem test_witness_FetchOutsideMemoryTakesMemoryFault :
    let s := { State.reset with pc := 0xFFF }
    s.fault = none ∧ s.wait = .running ∧ 0xFFE < s.pc.toNat := by decide
theorem test_witness_StepResultSaysWhatChanged :
    perform .step (word 0x1206) = .next ((word 0x1206).jumpTo 0x206, .stepped .ok) ∧
    perform .step State.reset = .next (State.reset.reportUnknown, .stepped (.unknownOpcode 0 0x200)) :=
  ⟨eq_of_answers (by decide), eq_of_answers (by decide)⟩
theorem test_witness_StepResultSaysWhatChanged_stopped :
    perform .step (word 0x00EE) = .next ((word 0x00EE).raise .stackUnderflow, .stepped (.fault .stackUnderflow)) ∧
    perform .step (State.reset.setWait (.awaitingKey 0)) = .next (State.reset.setWait (.awaitingKey 0), .stepped .idle) :=
  ⟨eq_of_answers (by decide), eq_of_answers (by decide)⟩
theorem test_witness_FatalConditionsAreExactAndPrecise_stack :
    fatalCondition (.call 0) { State.reset with sp := 15 } = none ∧
    fatalCondition (.call 0) { State.reset with sp := 16 } = some .stackOverflow ∧
    fatalCondition .ret { State.reset with sp := 1 } = none ∧
    fatalCondition .ret { State.reset with sp := 0 } = some .stackUnderflow := by decide
theorem test_witness_FatalConditionsAreExactAndPrecise_memory :
    fatalCondition (.drw 0 0 1) (State.reset.setI 0xFFF) = none ∧
    fatalCondition (.drw 0 0 1) (State.reset.setI 0x1000) = some .memoryFault ∧
    fatalCondition (.drw 0 0 0) (State.reset.setI 0xFFFF) = none ∧
    fatalCondition (.ldB 0) (State.reset.setI 0xFFD) = none ∧
    fatalCondition (.ldB 0) (State.reset.setI 0xFFE) = some .memoryFault := by decide
theorem test_witness_FatalConditionsAreExactAndPrecise_blocks :
    fatalCondition (.storeRegs 15) (State.reset.setI 0xFF0) = none ∧
    fatalCondition (.storeRegs 15) (State.reset.setI 0xFF1) = some .memoryFault ∧
    fatalCondition (.loadRegs 0) (State.reset.setI 0xFFF) = none ∧
    fatalCondition (.loadRegs 0) (State.reset.setI 0x1000) = some .memoryFault := by decide
theorem test_witness_StackFaultsChangeNothingElse :
    ({ State.reset with sp := 16 } : State).sp.val = 16 ∧ State.reset.sp.val = 0 := by decide
theorem test_witness_OnlyInitialiseEndsAFault :
    let s := State.reset.raise .stackOverflow
    s.fault = some .stackOverflow ∧ perform (.keyPress 9) s = .next (s.keyPress 9, .nothing) ∧
    perform .initialise s = .next (State.reset, .nothing) :=
  ⟨by decide, eq_of_answers (by decide), eq_of_answers (by decide)⟩
theorem test_witness_RetResumesAfterTheSavedAddress :
    0 < ({ State.reset with sp := 1 } : State).sp.val ∧ 0 < ({ State.reset with sp := 16 } : State).sp.val := by decide
theorem test_witness_CallPushesItsOwnAddress :
    ({ State.reset with sp := 15 } : State).sp.val < 16 ∧ State.reset.sp.val < 16 := by decide

/-- The state in which a CALL to 0x300 at 0x200 has been executed, and there an LD I,nnn is next. -/
def inSubroutine : State :=
  { State.reset with stack := State.reset.stack.set 0 0x200, sp := 1, pc := 0x300, mem := [(0x300, 0xA1)] }

theorem test_witness_BalancedSubroutineReturnsAfterTheCall :
    let s := { State.reset with mem := [(0x300, 0xA1)] }
    s.sp.val < 16 ∧ exec (.call 0x300) s = .next inSubroutine ∧
    RunsAtDepth inSubroutine.sp.val inSubroutine ((inSubroutine.setI 0x100).jumpTo 0x302) ∧
    ((inSubroutine.setI 0x100).jumpTo 0x302).sp = inSubroutine.sp :=
  ⟨by decide, eq_of_answers (by decide), .step _ _ _ (by decide) (eq_of_answers (by decide)) (.refl _ (by decide)), by decide⟩
theorem test_witness_SelfJumpStays :
    (word 0x1200).fault = none ∧ (word 0x1200).wait = .running ∧
    (word 0x1200).fetch16? = some (encode (.jp 0x200)) ∧ (word 0x1200).pc.toNat = (0x200 : Addr12).toNat := by decide
theorem test_witness_flag_writers : (14 : Nibble) ≠ 15 ∧ ¬((15 : Nibble) ≠ 15) := by decide
theorem test_witness_OnlyDestinationsAreWritten :
    exec (.addReg 0 1) State.reset = .next (State.reset.jumpTo 0x202) ∧ (14 : Nibble) ∉ destinations (.addReg 0 1) ∧
    (2 : Nibble) ∉ destinations (.loadRegs 1) ∧ (1 : Nibble) ∈ destinations (.loadRegs 1) :=
  ⟨eq_of_answers (by decide), by decide⟩
theorem test_witness_DrwXorsTheSpriteOntoTheScreen :
    (State.reset.setI 0xFFF).i.toNat + (1 : Nibble).toNat - 1 ≤ 0xFFF ∧ (0 : Nibble).toNat = 0 ∧
    spriteBit (State.reset.setI 0xFF1) 0 0 15 0 0 = false ∧ spriteBit State.reset 0 0 1 0 0 = true ∧
    spriteBit State.reset 0 0 1 4 0 = false := by decide
theorem test_witness_DrwXorsTheSpriteOntoTheScreen_collision :
    ∃ px py, px < 64 ∧ py < 32 ∧ spriteBit State.reset 0 0 1 px py = true ∧
      ({ State.reset with fb := lit [(3, 0)] } : State).fb.cell (py * 64 + px) = true := ⟨3, 0, by decide⟩
theorem test_witness_DrwXorsTheSpriteOntoTheScreen_no_collision :
    ¬∃ px py, px < 64 ∧ py < 32 ∧ spriteBit State.reset 0 0 0 px py = true ∧
      State.reset.fb.cell (py * 64 + px) = true := by
  rintro ⟨px, py, _, _, h, _⟩
  simp only [spriteBit, Bool.and_eq_true, decide_eq_true_eq] at h
  obtain ⟨⟨⟨_, low⟩, high⟩, _⟩ := h
  exact absurd (Nat.lt_of_lt_of_le high low) (Nat.lt_irrefl _)
theorem test_witness_DrwChecksTheWholeSprite :
    1 ≤ (1 : Nibble).toNat ∧ 0xFFF < (State.reset.setI 0x1000).i.toNat + (1 : Nibble).toNat - 1 ∧
    0xFFF < (State.reset.setI 0xFF2).i.toNat + (15 : Nibble).toNat - 1 := by decide

/-- The state after a DRW of the top row of the glyph 0, which lies at address 0, from reset. -/
def drawnOnce : State :=
  ((State.reset.setReg 15 0).paint (lit [(0, 0), (1, 0), (2, 0), (3, 0)])).jumpTo 0x202

theorem test_witness_DrawingTwiceRestoresTheScreen :
    exec (.drw 0 0 1) State.reset = .next drawnOnce ∧
    exec (.drw 0 0 1) drawnOnce = .next (((drawnOnce.setReg 15 1).paint Screen.blank).jumpTo 0x204) ∧
    drawnOnce.fb = drawnOnce.fb ∧ drawnOnce.i = State.reset.i ∧
    (∀ a, drawnOnce.mem.readByte a = State.reset.mem.readByte a) ∧ drawnOnce.reg 0 = State.reset.reg 0 ∧
    State.reset.i.toNat + (1 : Nibble).toNat - 1 ≤ 0xFFF :=
  ⟨eq_of_answers (by decide), eq_of_answers (by decide), rfl, rfl, fun _ => rfl, rfl, by decide⟩
theorem test_witness_OnlyClsAndDrwWriteTheScreen :
    exec (.ldI 0x300) State.reset = .next ((State.reset.setI 0x300).jumpTo 0x202) ∧ isDraw (.ldI 0x300) = false ∧
    State.reset.redraw = true :=
  ⟨eq_of_answers (by decide), by decide⟩
theorem test_witness_KeySkipsReadTheKeyState :
    NamesPressedKey ((State.reset.setReg 0 15).setKey 15 true) 0 := ⟨15, by decide, by decide⟩
theorem test_witness_KeySkipsReadTheKeyState_not :
    ¬NamesPressedKey ((State.reset.setReg 0 16).setKey 0 true) 0 ∧ ¬NamesPressedKey (State.reset.setReg 0 15) 0 := by
  unfold NamesPressedKey
  decide
theorem test_witness_KeyWaitEndsByAPressThenAStep :
    let s := State.reset.setWait (.awaitingKey 1)
    let t := State.reset.setWait (.keyLatched 1 3)
    perform (.keyPress 3) s = .next (s.keyPress 3, .nothing) ∧ s.wait = .awaitingKey 1 ∧
    perform .step t = .next (t.completeWait 1 3, .stepped .ok) ∧ t.wait = .keyLatched 1 3 ∧ t.fault = none :=
  ⟨eq_of_answers (by decide), by decide, eq_of_answers (by decide), by decide⟩
theorem test_witness_TimersChangeOnlyByTheirWriters :
    let s := (word 0xF115).setReg 1 7
    let t := (word 0xF118).setReg 1 7
    perform .step s = .next ((s.setDt 7).jumpTo 0x202, .stepped .ok) ∧ (s.setDt 7).dt ≠ s.dt ∧
    perform .step t = .next ((t.setSt 7).jumpTo 0x202, .stepped .ok) ∧ (t.setSt 7).st ≠ t.st :=
  ⟨eq_of_answers (by decide), by decide, eq_of_answers (by decide), by decide⟩
theorem test_witness_BcdStoresThreeDigits :
    (State.reset.setI 0xFFD).i.toNat + 2 ≤ 0xFFF ∧ 0xFFF < (State.reset.setI 0xFFE).i.toNat + 2 := by decide
theorem test_witness_BlockTransfers :
    (State.reset.setI 0xFF0).i.toNat + (15 : Nibble).toNat ≤ 0xFFF ∧
    0xFFF < (State.reset.setI 0xFF1).i.toNat + (15 : Nibble).toNat ∧
    (State.reset.setI 0xFFF).i.toNat + (0 : Nibble).toNat ≤ 0xFFF ∧ (15 : Nibble).toNat ≤ (15 : Nibble).toNat ∧
    (0 : Nibble).toNat < (1 : Nibble).toNat := by decide
theorem test_witness_BlockStoreThenLoadRoundTrips :
    let s := (State.reset.setI 0x300).setReg 0 0x11
    let t := ((s.store 0x300 [0x11]).setI 0x301).jumpTo 0x202
    let t' := (t.setI 0x300).setReg 0 0
    s.i.toNat + (0 : Nibble).toNat ≤ 0xFFF ∧ exec (.storeRegs 0) s = .next t ∧ t'.i = s.i ∧
    (∀ a, t'.mem.readByte a = t.mem.readByte a) ∧
    exec (.loadRegs 0) t' = .next (((t'.setReg 0 0x11).setI 0x301).jumpTo 0x204) :=
  ⟨by decide, eq_of_answers (by decide), by decide, fun _ => rfl, eq_of_answers (by decide)⟩
/-- The store of program P8. -/
theorem test_witness_BlockStoreIsSeenByTheNextFetch :
    let s := ({ State.reset with i := 0x208, pc := 0x206 }.setReg 0 0x60).setReg 1 0x77
    let t := ((s.store 0x208 [0x60, 0x77]).setI 0x20A).jumpTo 0x208
    s.i.toNat + (1 : Nibble).toNat ≤ 0xFFF ∧ (0 : Nibble).toNat + 1 ≤ (1 : Nibble).toNat ∧
    s.pc.toNat + 2 = s.i.toNat + (0 : Nibble).toNat ∧ exec (.storeRegs 1) s = .next t ∧ t.fetch16? = some 0x6077 :=
  ⟨by decide, by decide, by decide, eq_of_answers (by decide), by decide⟩
theorem test_witness_OnlyTwoInstructionsStore :
    exec (.ldI 0x300) State.reset = .next ((State.reset.setI 0x300).jumpTo 0x202) ∧ isStore (.ldI 0x300) = false :=
  ⟨eq_of_answers (by decide), by decide⟩
theorem test_witness_CanonicalMemoriesThatReadAlikeAreEqual :
    Memory.wf [(0, 7), (0xFFF, 5)] ∧ ¬Memory.wf [(0xFFF, 0)] ∧ ¬Memory.wf [(0x1000, 5)] ∧ ¬Memory.wf [(4, 5), (3, 5)] := by
  decide
theorem test_witness_KeyStateIsWrittenByTheAdapterAndReadByTheSkips :
    perform (.keyPress 9) State.reset = .next (State.reset.setKey 9 true, .nothing) ∧
    (State.reset.setKey 9 true).keys ≠ State.reset.keys ∧ isKeySkip (.ldVxK 3) = false ∧
    exec (.ldVxK 3) State.reset = .next (State.reset.setWait (.awaitingKey 3)) :=
  ⟨eq_of_answers (by decide), by decide, by decide, eq_of_answers (by decide)⟩
theorem test_witness_UnreadStateNeverAffectsAStep :
    SameProgramView State.reset
      { State.reset with st := 9, redraw := false, unknownSeen := true, stack := State.reset.stack.set 0 7 } :=
  ⟨rfl, rfl, rfl, rfl, rfl, fun _ h => absurd h (Nat.not_lt_zero _), rfl, rfl, rfl, rfl, rfl, rfl⟩
theorem test_witness_ResetValues :
    State.reset.mem.readByte 79 = 0x80 ∧ font.getD 79 0 = 0x80 ∧ State.reset.mem.readByte 80 = 0 := by decide
theorem test_witness_LoadProgramCopiesOrRejects :
    0x200 + (List.replicate 3583 (0xAB : Byte)).length ≤ 0xFFF ∧
    0xFFF < 0x200 + (List.replicate 3584 (0xAB : Byte)).length := by
  rw [List.length_replicate, List.length_replicate]; decide
theorem test_witness_KeyPressAndReleaseSetTheKey :
    (State.reset.setWait (.awaitingKey 1)).wait = .awaitingKey 1 ∧ (∀ x, State.reset.wait ≠ .awaitingKey x) := by decide
theorem test_witness_StepKeepsTheInvariant : Inv State.reset ∧ step State.reset = .next State.reset.reportUnknown :=
  ⟨⟨by decide, by decide, by decide, by decide, by decide⟩, eq_of_answers (by decide)⟩
theorem test_witness_HostOperationsKeepTheInvariant :
    Inv (State.reset.setWait (.awaitingKey 1)) ∧ Op.keyPress 3 ≠ .step ∧
    perform (.keyPress 3) (State.reset.setWait (.awaitingKey 1)) =
      .next ((State.reset.setWait (.awaitingKey 1)).keyPress 3, .nothing) :=
  ⟨⟨by decide, by decide, by decide, by decide, by decide⟩, by decide, eq_of_answers (by decide)⟩

/-- A schedule of two ticks and a press between steps: E8 from the wait on, with the timers of H3 and H1. -/
theorem test_schedule :
    performAll [.step, .tickTimers, .keyPress 3, .tickTimers, .step]
        ((State.reset.setWait (.awaitingKey 0)).setSt 1) =
      .next (((State.reset.setKey 3 true).setReg 0 3).jumpTo 0x202,
        [.stepped .idle, .tone true, .nothing, .tone false, .stepped .ok]) := eq_of_answers (by decide)

/-- A schedule that presses a key and then ticks for ever. -/
def pressThenTick : Nat → Op
  | 0 => .initialise
  | 1 => .keyPress 3
  | _ => .tickTimers

theorem test_witness_HostOperationsKeepTheInvariant_run :
    IsRun pressThenTick (fun n => if n ≤ 1 then State.reset else State.reset.setKey 3 true)
      (fun n => if n ≤ 1 then .nothing else .tone false) where
  first := rfl
  follows
    | 0 => rfl
    | 1 => rfl
    | n + 2 => by
      have h : ¬n + 2 ≤ 1 := by omega
      have h' : ¬n + 2 + 1 ≤ 1 := by omega
      rw [if_neg h, if_neg h', if_neg h, show pressThenTick (n + 2) = .tickTimers from rfl]
      exact eq_of_answers (by decide)

end Sys2Proof.Tests
end

/-! # What one instruction can do

`exec` says for each of the 34 instructions what it does. Here it is said once what all of them have in common: the
writes that an instruction may make before it moves the pc (`Writes`), where it may move it to (`Successor`), and the
three ways in which it can end (`ExecOutcome`). The invariants of the state are inductions over these. -/

namespace Sys2Proof.Machine

/-- `u` is `s` after some of the writes that instruction `i` may make, the pc not among them. -/
inductive Writes (i : Instr) (s : State) : State → Prop where
  | none : Writes i s s
  | setReg {u : State} {r : Nibble} (b : Byte) : r ∈ destinations i → Writes i s u → Writes i s (u.setReg r b)
  | setI {u : State} (w : Word) : Writes i s u → Writes i s (u.setI w)
  | store {a : Nat} {bs : List Byte} : isStore i = true → inMemory a bs.length = true → Writes i s (s.store a bs)
  | setDt {x : Nibble} : i = .ldDtVx x → Writes i s (s.setDt (s.reg x))
  | setSt {x : Nibble} : i = .ldStVx x → Writes i s (s.setSt (s.reg x))
  | paint {u : State} (fb : Screen) : isDraw i = true → Writes i s u → Writes i s (u.paint fb)
  | drawn {u : State} {x : Nibble} {nn : Byte} : i = .rnd x nn → Writes i s u → Writes i s u.drawn
  | push {nnn : Addr12} (h : s.sp.val < 16) : i = .call nnn →
      Writes i s { s with stack := s.stack.set s.sp.val s.pc h, sp := ⟨s.sp.val + 1, Nat.succ_lt_succ h⟩ }
  | pop : i = .ret → Writes i s { s with sp := ⟨s.sp.val - 1, Nat.lt_of_le_of_lt (Nat.sub_le _ _) s.sp.isLt⟩ }

/-- Where an instruction that completes in `s` may move the pc. -/
inductive Successor (s : State) : Word → Prop where
  | following : Successor s (s.pc + 2)
  | skip (c : Bool) : Successor s (if c then s.pc + 4 else s.pc + 2)
  | direct (nnn : Addr12) : Successor s (addrWord nnn)
  | offset (nnn : Addr12) (b : Byte) : Successor s (addrWord nnn + byteWord b)
  | returned (j : Fin 16) : j.val < s.sp.val → Successor s (s.stack[j] + 2)

/-- The ways in which instruction `i` can end in `s`: it takes its fatal condition and does nothing else, it begins the
key-wait, or it completes. -/
inductive ExecOutcome (i : Instr) (s : State) : State → Prop where
  | faults {k : FatalKind} : fatalCondition i s = some k → ExecOutcome i s (s.raise k)
  | waits {x : Nibble} : i = .ldVxK x → ExecOutcome i s (s.setWait (.awaitingKey x))
  | completes {u : State} {w : Word} :
      fatalCondition i s = none → Writes i s u → Successor s w → ExecOutcome i s (u.jumpTo w)

theorem Writes.setFlag {i : Instr} {s u : State} (c : Bool) (hr : flagReg ∈ destinations i) (hu : Writes i s u) :
    Writes i s (u.setFlag c) := .setReg _ hr hu

theorem Writes.setResult {i : Instr} {s u : State} {x : Nibble} (b : Byte) (c : Bool) (hx : x ∈ destinations i)
    (hf : flagReg ∈ destinations i) (hu : Writes i s u) : Writes i s (u.setResult x b c) :=
  .setFlag c hf (.setReg b hx hu)

theorem Writes.setRegsFrom {i : Instr} {s u : State} {r : Nat} {bs : List Byte}
    (hr : ∀ j, j < r + bs.length → BitVec.ofNat 4 j ∈ destinations i) (hu : Writes i s u) :
    Writes i s (u.setRegsFrom r bs) := by
  induction bs generalizing u r with
  | nil => exact hu
  | cons b bs ih =>
    simp only [List.length_cons] at hr
    exact ih (fun j hj => hr j (by omega)) (.setReg b (hr r (by omega)) hu)

/-- A guarded access ends as one of the outcomes, if the instruction's fatal condition is the failure of the guard. -/
theorem ExecOutcome.ifInMemory {i : Instr} {s u : State} {w : Word} {a n : Nat}
    (inside : n = 0 ∨ a + n ≤ 4096 → fatalCondition i s = .none)
    (outside : ¬(n = 0 ∨ a + n ≤ 4096) → fatalCondition i s = some .memoryFault)
    (hu : inMemory a n = true → Writes i s u) (hw : Successor s w) :
    ExecOutcome i s (s.ifInMemory a n (u.jumpTo w)) := by
  rcases State.ifInMemory_cases s (u.jumpTo w) a n with ⟨h, e⟩ | ⟨h, e⟩
  · rw [e]; exact .completes (inside h) (hu ((inMemory_iff a n).mpr h)) hw
  · rw [e]; exact .faults (outside h)

theorem execRet_of_empty {s : State} (h : s.sp.val = 0) : execRet s = .next (s.raise .stackUnderflow) := by
  simp only [execRet, (State.pop?_none_iff s).mpr h]

theorem execRet_of_pos {s : State} (h : 0 < s.sp.val) :
    execRet s = .next
      (State.jumpTo { s with sp := ⟨s.sp.val - 1, Nat.lt_of_le_of_lt (Nat.sub_le _ _) s.sp.isLt⟩ }
        (s.stack[s.sp.val - 1] + 2)) := by
  obtain ⟨_, hpop⟩ := State.pop?_of_pos h
  simp only [execRet, hpop]

theorem execCall_of_full {s : State} (nnn : Addr12) (h : s.sp.val = 16) :
    execCall nnn s = .next (s.raise .stackOverflow) := by
  simp only [execCall, (State.push?_none_iff s).mpr h]

theorem execCall_of_lt {s : State} (nnn : Addr12) (h : s.sp.val < 16) :
    execCall nnn s = .next
      (State.jumpTo { s with stack := s.stack.set s.sp.val s.pc h, sp := ⟨s.sp.val + 1, Nat.succ_lt_succ h⟩ }
        (addrWord nnn)) := by
  simp only [execCall, State.push?_of_lt h]

theorem execRet_outcome (s : State) : ∃ t, execRet s = .next t ∧ ExecOutcome .ret s t := by
  rcases Nat.eq_zero_or_pos s.sp.val with empty | pos
  · exact ⟨_, execRet_of_empty empty, .faults (if_pos empty)⟩
  · exact ⟨_, execRet_of_pos pos, .completes (if_neg (Nat.ne_of_gt pos)) (.pop rfl)
      (.returned ⟨s.sp.val - 1, by omega⟩ (Nat.sub_one_lt_of_lt pos))⟩

theorem execCall_outcome (nnn : Addr12) (s : State) :
    ∃ t, execCall nnn s = .next t ∧ ExecOutcome (.call nnn) s t := by
  rcases Nat.lt_succ_iff_lt_or_eq.mp s.sp.isLt with room | full
  · exact ⟨_, execCall_of_lt nnn room, .completes (if_neg (Nat.ne_of_lt room)) (.push room rfl) (.direct nnn)⟩
  · exact ⟨_, execCall_of_full nnn full, .faults (if_pos full)⟩

theorem execDrw_outcome (x y n : Nibble) (s : State) :
    ExecOutcome (.drw x y n) s (s.ifInMemory s.base n.toNat
      (((s.setFlag (s.sprite x y n).2).paint (s.sprite x y n).1).advance)) := by
  refine .ifInMemory (fun h => ?_) (fun h => ?_)
    (fun _ => .paint _ rfl (.setFlag _ (by simp [destinations, flagReg]) .none)) .following
  · exact if_neg (by unfold State.base at h; omega)
  · exact if_pos (by unfold State.base at h; omega)

theorem execLdB_outcome (x : Nibble) (s : State) :
    ExecOutcome (.ldB x) s (s.ifInMemory s.base 3 (s.store s.base (bcdDigits (s.reg x))).advance) := by
  refine .ifInMemory (fun h => ?_) (fun h => ?_) (fun h => .store rfl h) .following
  · exact if_neg (by unfold State.base at h; omega)
  · exact if_pos (by unfold State.base at h; omega)

theorem execStoreRegs_outcome (x : Nibble) (s : State) :
    ExecOutcome (.storeRegs x) s (s.ifInMemory s.base (blockSize x)
      (((s.store s.base (s.regsFrom 0 (blockSize x))).setI (s.indexAfterBlock x)).advance)) := by
  refine .ifInMemory (fun h => ?_) (fun h => ?_) (fun h => .setI _ (.store rfl (by simpa using h))) .following
  · exact if_neg (by unfold State.base blockSize at h; omega)
  · exact if_pos (by unfold State.base blockSize at h; omega)

theorem execLoadRegs_outcome (x : Nibble) (s : State) :
    ExecOutcome (.loadRegs x) s (s.ifInMemory s.base (blockSize x)
      (((s.setRegsFrom 0 (s.mem.readBytes s.base (blockSize x))).setI (s.indexAfterBlock x)).advance)) := by
  have loaded : ∀ j, j < 0 + (s.mem.readBytes s.base (blockSize x)).length →
      BitVec.ofNat 4 j ∈ destinations (.loadRegs x) := fun j hj =>
    List.mem_map_of_mem (List.mem_range.mpr (by simpa [blockSize] using hj))
  refine .ifInMemory (fun h => ?_) (fun h => ?_) (fun _ => .setI _ (.setRegsFrom loaded .none))
    (by simpa using Successor.following)
  · exact if_neg (by unfold State.base blockSize at h; omega)
  · exact if_pos (by unfold State.base blockSize at h; omega)

/-- Every instruction answers a next state, and that state is one of the outcomes. -/
theorem exec_outcome (i : Instr) (s : State) : ∃ t, exec i s = .next t ∧ ExecOutcome i s t := by
  have first {x : Nibble} {l : List Nibble} : x ∈ x :: l := List.mem_cons_self
  have second {x y : Nibble} : y ∈ [x, y] := by simp
  cases i with
  | cls => exact ⟨_, rfl, .completes rfl (.paint _ rfl .none) .following⟩
  | ret => exact execRet_outcome s
  | jp nnn => exact ⟨_, rfl, .completes rfl .none (.direct nnn)⟩
  | call nnn => exact execCall_outcome nnn s
  | seImm x nn => exact ⟨_, rfl, .completes rfl .none (.skip _)⟩
  | sneImm x nn => exact ⟨_, rfl, .completes rfl .none (.skip _)⟩
  | seReg x y => exact ⟨_, rfl, .completes rfl .none (.skip _)⟩
  | ldImm x nn => exact ⟨_, rfl, .completes rfl (.setReg _ first .none) .following⟩
  | addImm x nn => exact ⟨_, rfl, .completes rfl (.setReg _ first .none) .following⟩
  | ldReg x y => exact ⟨_, rfl, .completes rfl (.setReg _ first .none) .following⟩
  | orReg x y => exact ⟨_, rfl, .completes rfl (.setReg _ first .none) .following⟩
  | andReg x y => exact ⟨_, rfl, .completes rfl (.setReg _ first .none) .following⟩
  | xorReg x y => exact ⟨_, rfl, .completes rfl (.setReg _ first .none) .following⟩
  | addReg x y => exact ⟨_, rfl, .completes rfl (.setResult _ _ first second .none) .following⟩
  | subReg x y => exact ⟨_, rfl, .completes rfl (.setResult _ _ first second .none) .following⟩
  | shr x => exact ⟨_, rfl, .completes rfl (.setResult _ _ first second .none) .following⟩
  | subnReg x y => exact ⟨_, rfl, .completes rfl (.setResult _ _ first second .none) .following⟩
  | shl x => exact ⟨_, rfl, .completes rfl (.setResult _ _ first second .none) .following⟩
  | sneReg x y => exact ⟨_, rfl, .completes rfl .none (.skip _)⟩
  | ldI nnn => exact ⟨_, rfl, .completes rfl (.setI _ .none) .following⟩
  | jpV0 nnn => exact ⟨_, rfl, .completes rfl .none (.offset nnn _)⟩
  | rnd x nn => exact ⟨_, rfl, .completes rfl (.drawn rfl (.setReg _ first .none)) .following⟩
  | drw x y n => exact ⟨_, rfl, execDrw_outcome x y n s⟩
  | skp x => exact ⟨_, rfl, .completes rfl .none (.skip _)⟩
  | sknp x => exact ⟨_, rfl, .completes rfl .none (.skip _)⟩
  | ldVxDt x => exact ⟨_, rfl, .completes rfl (.setReg _ first .none) .following⟩
  | ldVxK x => exact ⟨_, rfl, .waits rfl⟩
  | ldDtVx x => exact ⟨_, rfl, .completes rfl (.setDt rfl) .following⟩
  | ldStVx x => exact ⟨_, rfl, .completes rfl (.setSt rfl) .following⟩
  | addI x => exact ⟨_, rfl, .completes rfl (.setI _ .none) .following⟩
  | ldF x => exact ⟨_, rfl, .completes rfl (.setI _ .none) .following⟩
  | ldB x => exact ⟨_, rfl, execLdB_outcome x s⟩
  | storeRegs x => exact ⟨_, rfl, execStoreRegs_outcome x s⟩
  | loadRegs x => exact ⟨_, rfl, execLoadRegs_outcome x s⟩

theorem outcome_of_exec {i : Instr} {s t : State} (h : exec i s = .next t) : ExecOutcome i s t := by
  obtain ⟨u, hu, outcome⟩ := exec_outcome i s
  obtain rfl : u = t := Host.Outcome.next.inj (hu.symm.trans h)
  exact outcome

/-- Every step answers a next state. -/
theorem step_answers (s : State) : ∃ t, step s = .next t := by
  rcases step_cases s with ⟨h, -⟩ | ⟨x, k, h, -⟩ | ⟨h, -⟩ | ⟨w, h, -⟩ | ⟨w, i, h, -⟩
  · exact ⟨_, h⟩
  · exact ⟨_, h⟩
  · exact ⟨_, h⟩
  · exact ⟨_, h⟩
  · obtain ⟨t, ht, -⟩ := exec_outcome i s
    exact ⟨t, h.trans ht⟩

/-! ## What the writes of an instruction leave alone -/

/-- No instruction writes the pc before its transfer of control, nor the keys, the wait state, the latch or the
diagnostic bit. -/
theorem Writes.keeps_control {i : Instr} {s u : State} (h : Writes i s u) :
    u.pc = s.pc ∧ u.keys = s.keys ∧ u.wait = s.wait ∧ u.fault = s.fault ∧ u.unknownSeen = s.unknownSeen := by
  induction h with
  | setReg _ _ _ ih | setI _ _ ih | paint _ _ _ ih | drawn _ _ ih => exact ih
  | none | store | setDt | setSt | push | pop => exact ⟨rfl, rfl, rfl, rfl, rfl⟩

theorem Writes.keeps_reg {i : Instr} {s u : State} {r : Nibble} (h : Writes i s u) (hr : r ∉ destinations i) :
    u.reg r = s.reg r := by
  induction h with
  | setReg b hd _ ih =>
    rw [State.reg_setReg_ne _ _ _ _ (ne_of_mem_of_not_mem hd hr).symm, ih]
  | setI _ _ ih | paint _ _ _ ih | drawn _ _ ih => exact ih
  | none | store | setDt | setSt | push | pop => rfl

theorem Writes.keeps_screen {i : Instr} {s u : State} (h : Writes i s u) (hi : isDraw i = false) :
    u.fb = s.fb ∧ u.redraw = s.redraw := by
  induction h with
  | paint _ hd => simp [hi] at hd
  | setReg _ _ _ ih | setI _ _ ih | drawn _ _ ih => exact ih
  | none | store | setDt | setSt | push | pop => exact ⟨rfl, rfl⟩

theorem Writes.keeps_redraw_set {i : Instr} {s u : State} (h : Writes i s u) (hs : s.redraw = true) :
    u.redraw = true := by
  induction h with
  | paint => rfl
  | setReg _ _ _ ih | setI _ _ ih | drawn _ _ ih => exact ih
  | none | store | setDt | setSt | push | pop => exact hs

theorem Writes.keeps_memory_wf {i : Instr} {s u : State} (h : Writes i s u) (hs : s.mem.wf) : u.mem.wf := by
  induction h with
  | store _ ha => exact State.store_wf hs _ _ ha
  | setReg _ _ _ ih | setI _ _ ih | paint _ _ _ ih | drawn _ _ ih => exact ih
  | none | setDt | setSt | push | pop => exact hs

/-- A bound of all saved pcs and of the pc is a bound of the saved pcs after the writes: the one entry that an
instruction saves is the pc. -/
theorem Writes.keeps_saved_le {i : Instr} {s u : State} {n : Nat} (h : Writes i s u) (hpc : s.pc.toNat ≤ n)
    (hs : ∀ j : Fin 16, j.val < s.sp.val → s.stack[j].toNat ≤ n) :
    ∀ j : Fin 16, j.val < u.sp.val → u.stack[j].toNat ≤ n := by
  induction h with
  | push hlt =>
    intro j hj
    rcases Nat.lt_succ_iff_lt_or_eq.mp hj with below | top
    · simpa [Vector.getElem_set_ne, Nat.ne_of_gt below] using hs j below
    · simpa [top] using hpc
  | pop => exact fun j hj => hs j (Nat.lt_of_lt_of_le hj (Nat.sub_le _ _))
  | setReg _ _ _ ih | setI _ _ ih | paint _ _ _ ih | drawn _ _ ih => exact ih
  | none | store | setDt | setSt => exact hs

/-! ## Which parts of the state an instruction keeps -/

theorem exec_keeps_keys {i : Instr} {s t : State} (h : exec i s = .next t) : t.keys = s.keys := by
  cases outcome_of_exec h with
  | faults => rfl
  | waits => rfl
  | completes _ hu _ => exact hu.keeps_control.2.1

/-- Settles O31: whatever the outcome, the registers are those of the instruction's writes. -/
theorem onlyDestinationsAreWritten : Obligations.OnlyDestinationsAreWritten := by
  intro i s t r h hr
  cases outcome_of_exec h with
  | faults => rfl
  | waits => rfl
  | completes _ hu _ => exact hu.keeps_reg hr

/-- Settles O36: only `paint` touches the screen and the redraw flag, CLS and DRW alone use it, and it sets the flag. -/
theorem onlyClsAndDrwWriteTheScreen : Obligations.OnlyClsAndDrwWriteTheScreen := by
  intro i s t h
  cases outcome_of_exec h with
  | faults => exact ⟨fun _ => ⟨rfl, rfl⟩, id⟩
  | waits => exact ⟨fun _ => ⟨rfl, rfl⟩, id⟩
  | completes _ hu _ => exact ⟨hu.keeps_screen, hu.keeps_redraw_set⟩

/-! ## The invariant -/

theorem Inv.raise {s : State} (h : Inv s) (running : s.wait = .running) (k : FatalKind) : Inv (s.raise k) :=
  { h with faultedNotWaiting := fun _ => running }

theorem Inv.beginWait {s : State} (h : Inv s) (noFault : s.fault = none) (fetched : s.pc.toNat ≤ 0xFFE) (x : Nibble) :
    Inv (s.setWait (.awaitingKey x)) :=
  { h with
    waitPcRange := fun _ => fetched
    faultedNotWaiting := fun faulted => absurd noFault faulted }

theorem Inv.completeWait {s : State} (h : Inv s) {x k : Nibble} (latched : s.wait = .keyLatched x k) :
    Inv (s.completeWait x k) :=
  { h with
    pcRange := by
      have := h.waitPcRange (by simp [latched])
      rw [State.completeWait_pc]; bv_omega
    waitPcRange := fun waiting => absurd rfl waiting
    faultedNotWaiting := fun _ => rfl }

theorem Inv.reportUnknown {s : State} (h : Inv s) (running : s.wait = .running) (fetched : s.pc.toNat ≤ 0xFFE) :
    Inv s.reportUnknown :=
  { h with
    pcRange := by rw [State.reportUnknown_pc]; bv_omega
    waitPcRange := fun waiting => absurd running waiting }

/-- R17: a successor of a fetched instruction is at most `0x0FFF + 0xFF`, the largest target of JP V0. -/
theorem Inv.successor_le {s : State} (h : Inv s) (fetched : s.pc.toNat ≤ 0xFFE) {w : Word} (hw : Successor s w) :
    w.toNat ≤ 0x10FE := by
  cases hw with
  | following => bv_omega
  | skip c => split <;> bv_omega
  | direct nnn => unfold addrWord; bv_omega
  | offset nnn b => unfold addrWord byteWord; bv_omega
  | returned j hj =>
    have := h.savedPcRange j hj
    bv_omega

theorem Inv.completes {i : Instr} {s u : State} (h : Inv s) (running : s.wait = .running)
    (fetched : s.pc.toNat ≤ 0xFFE) (hu : Writes i s u) {w : Word} (hw : Successor s w) : Inv (u.jumpTo w) := by
  obtain ⟨-, -, hwait, -, -⟩ := hu.keeps_control
  exact
    { memCanonical := hu.keeps_memory_wf h.memCanonical
      pcRange := h.successor_le fetched hw
      savedPcRange := hu.keeps_saved_le fetched h.savedPcRange
      waitPcRange := fun waiting => absurd (hwait.trans running) waiting
      faultedNotWaiting := fun _ => hwait.trans running }

/-- An instruction that a core fetched, neither faulted nor waiting, keeps the invariant. -/
theorem Inv.exec {i : Instr} {s t : State} (h : Inv s) (noFault : s.fault = none) (running : s.wait = .running)
    (fetched : s.pc.toNat ≤ 0xFFE) (ht : Machine.exec i s = .next t) : Inv t := by
  cases outcome_of_exec ht with
  | faults => exact h.raise running _
  | waits => exact h.beginWait noFault fetched _
  | completes _ hu hw => exact h.completes running fetched hu hw

/-- Settles O59, by the cases of a step and, for an instruction, of its outcome. -/
theorem stepKeepsTheInvariant : Obligations.StepKeepsTheInvariant := by
  intro s t h ht
  rcases step_cases s with ⟨e, -⟩ | ⟨x, k, e, -, -, latched⟩ | ⟨e, -, -, running, -⟩ |
    ⟨w, e, -, -, running, fetched, -⟩ | ⟨w, i, e, -, noFault, running, fetched, -⟩
  · cases e.symm.trans ht; exact h
  · cases e.symm.trans ht; exact h.completeWait latched
  · cases e.symm.trans ht; exact h.raise running _
  · cases e.symm.trans ht; exact h.reportUnknown running fetched
  · exact h.exec noFault running fetched (e.symm.trans ht)

end Sys2Proof.Machine

/-! # The operations of the host -/

namespace Sys2Proof.Machine

theorem Inv.initialise (s : State) : Inv s.initialise where
  memCanonical := reset_memory_wf
  pcRange := by simp [State.reset]
  savedPcRange := fun j hj => absurd hj (Nat.not_lt_zero j.val)
  waitPcRange := fun waiting => absurd rfl waiting
  faultedNotWaiting := fun _ => rfl

theorem Inv.loadProgram {s : State} (h : Inv s) (bytes : List Byte) : Inv (s.loadProgram bytes).1 := by
  unfold State.loadProgram
  split
  · exact h
  · next fits =>
    have inside : inMemory Config.progBase bytes.length = true := (inMemory_iff _ _).mpr (Or.inr (by omega))
    exact { h with memCanonical := State.store_wf h.memCanonical _ _ inside }

/-- A press latches a pending wait and begins none. -/
theorem Wait.press_eq_running_iff (w : Wait) (k : Nibble) : w.press k = .running ↔ w = .running := by
  cases w <;> simp [Wait.press]

theorem Inv.keyPress {s : State} (h : Inv s) (k : Nibble) : Inv (s.keyPress k) :=
  { h with
    waitPcRange := fun waiting => h.waitPcRange (mt (Wait.press_eq_running_iff s.wait k).mpr waiting)
    faultedNotWaiting := fun faulted => (Wait.press_eq_running_iff s.wait k).mpr (h.faultedNotWaiting faulted) }

/-- Every operation of the interface keeps the invariant. -/
theorem Inv.perform {o : Op} {s t : State} {r : Reply} (h : Inv s) (ht : Machine.perform o s = .next (t, r)) :
    Inv t := by
  cases o with
  | step => exact stepKeepsTheInvariant s t h (perform_step_eq_next.mp ht).1
  | initialise => cases ht; exact .initialise s
  | loadProgram bytes => cases ht; exact h.loadProgram bytes
  | tickTimers => cases ht; exact { h with }
  | keyPress k => cases ht; exact h.keyPress k
  | keyRelease k => cases ht; exact { h with }
  | readFramebuffer => cases ht; exact h
  | consumeRedraw => cases ht; exact { h with }

theorem perform_answers (o : Op) (s : State) : ∃ t r, perform o s = .next (t, r) := by
  cases o with
  | step =>
    obtain ⟨t, ht⟩ := step_answers s
    exact ⟨t, _, perform_step_eq_next.mpr ⟨ht, rfl⟩⟩
  | initialise | loadProgram | tickTimers | keyPress | keyRelease | readFramebuffer | consumeRedraw =>
    exact ⟨_, _, rfl⟩

/-- Every finite schedule of operations answers a next state. -/
theorem performAll_answers (os : List Op) (s : State) : ∃ t rs, performAll os s = .next (t, rs) := by
  induction os generalizing s with
  | nil => exact ⟨s, [], rfl⟩
  | cons o os ih =>
    obtain ⟨u, r, hu⟩ := perform_answers o s
    obtain ⟨t, rs, ht⟩ := ih u
    exact ⟨t, r :: rs, performAll_cons_eq_next.mpr ⟨u, r, rs, hu, ht, rfl⟩⟩

/-- Settles O60: the inductions over a schedule and over a run, from the invariance of each operation. -/
theorem hostOperationsKeepTheInvariant : Obligations.HostOperationsKeepTheInvariant := by
  refine ⟨fun o s t r _ h ht => h.perform ht, fun os s h => ?_, fun ops states replies run n => ?_⟩
  · obtain ⟨t, rs, ht⟩ := performAll_answers os s
    exact ⟨t, rs, ht, performAll_keeps (fun _ _ _ _ _ => Inv.perform) h ht⟩
  · exact run.induction Inv.initialise (fun _ _ _ _ => Inv.perform) n

/-- Settles O52, element by element. -/
theorem resetValues : Obligations.ResetValues := by
  have fontLength : font.length = 80 := by decide
  refine ⟨fun a _ => rfl, fontLength, fun a ha => ?_, State.reg_reset, rfl, rfl, rfl, fun j => ?_, rfl, rfl, rfl,
    Screen.cell_blank, rfl, fun j => ?_, rfl, rfl⟩
  · exact List.getD_eq_default _ _ (fontLength ▸ ha)
  · exact Vector.getElem_replicate j.isLt
  · exact Vector.getElem_replicate j.isLt

/-- Settles O53: the initialised state is the reset state in every part but the keys and the draw counter. -/
theorem initialiseIsIdempotentReset : Obligations.InitialiseIsIdempotentReset := by
  intro s
  refine ⟨s.initialise, rfl, rfl, rfl, fun p hp => ?_⟩
  cases p with
  | keys | draws => simp at hp
  | mem | regs | fb => exact fun _ => rfl
  | stack => exact ⟨rfl, rfl⟩
  | i | pc | dt | st | redraw | wait | fault | unknownSeen => rfl

end Sys2Proof.Machine

/-! # What an instruction does not read -/

namespace Sys2Proof.Machine

/-- The registers to store depend on the register file alone. -/
theorem State.regsFrom_congr {s t : State} (h : ∀ r, s.reg r = t.reg r) (r n : Nat) :
    s.regsFrom r n = t.regsFrom r n := by
  induction n generalizing r with
  | zero => rfl
  | succ n ih => rw [State.regsFrom, State.regsFrom, h, ih]

/-! ## The key state -/

/-- The state with another key state. -/
def State.withKeys (s : State) (ks : Vector Bool 16) : State := { s with keys := ks }

theorem State.withKeys_ifInMemory (s t : State) (ks : Vector Bool 16) (a n : Nat) :
    (s.withKeys ks).ifInMemory a n (t.withKeys ks) = (s.ifInMemory a n t).withKeys ks := by
  unfold State.ifInMemory
  split <;> rfl

theorem State.withKeys_setRegsFrom (s : State) (ks : Vector Bool 16) (r : Nat) (bs : List Byte) :
    (s.withKeys ks).setRegsFrom r bs = (s.setRegsFrom r bs).withKeys ks := by
  induction bs generalizing s r with
  | nil => rfl
  | cons b bs ih => exact ih (s.setReg _ b) (r + 1)

/-- An instruction that does not read the keys does the same with any others. -/
theorem exec_withKeys {i : Instr} {s t : State} (ks : Vector Bool 16) (hi : isKeySkip i = false)
    (h : exec i s = .next t) : exec i (s.withKeys ks) = .next (t.withKeys ks) := by
  cases i with
  | skp | sknp => simp [isKeySkip] at hi
  | ret =>
    rcases Nat.eq_zero_or_pos s.sp.val with empty | pos
    · cases (execRet_of_empty empty).symm.trans h
      exact execRet_of_empty (s := s.withKeys ks) empty
    · cases (execRet_of_pos pos).symm.trans h
      exact execRet_of_pos (s := s.withKeys ks) pos
  | call nnn =>
    rcases Nat.lt_succ_iff_lt_or_eq.mp s.sp.isLt with room | full
    · cases (execCall_of_lt nnn room).symm.trans h
      exact execCall_of_lt (s := s.withKeys ks) nnn room
    · cases (execCall_of_full nnn full).symm.trans h
      exact execCall_of_full (s := s.withKeys ks) nnn full
  | drw | ldB =>
    cases h
    rw [← State.withKeys_ifInMemory]
    rfl
  | storeRegs x =>
    cases h
    have stored := State.regsFrom_congr (s := s.withKeys ks) (t := s) (fun _ => rfl) 0 (blockSize x)
    rw [← State.withKeys_ifInMemory, exec, execStoreRegs, stored]
    rfl
  | loadRegs x =>
    cases h
    rw [← State.withKeys_ifInMemory, exec, execLoadRegs, State.withKeys_setRegsFrom]
    rfl
  | cls | jp | seImm | sneImm | seReg | sneReg | jpV0 | ldImm | addImm | ldReg | orReg | andReg | xorReg | addReg
  | subReg | shr | subnReg | shl | rnd | ldI | addI | ldF | ldVxDt | ldVxK | ldDtVx | ldStVx =>
    cases h; rfl

theorem step_keeps_keys {s t : State} (h : step s = .next t) : t.keys = s.keys := by
  rcases step_cases s with ⟨e, -⟩ | ⟨x, k, e, -⟩ | ⟨e, -⟩ | ⟨w, e, -⟩ | ⟨w, i, e, -⟩
  · cases e.symm.trans h; rfl
  · cases e.symm.trans h; rfl
  · cases e.symm.trans h; rfl
  · cases e.symm.trans h; rfl
  · exact exec_keeps_keys (e.symm.trans h)

theorem loadProgram_keeps_keys (s : State) (bytes : List Byte) : (s.loadProgram bytes).1.keys = s.keys := by
  unfold State.loadProgram
  split <;> rfl

/-- Settles O50: who writes the keys by the cases of an operation, who reads them by those of an instruction. -/
theorem keyStateIsWrittenByTheAdapterAndReadByTheSkips :
    Obligations.KeyStateIsWrittenByTheAdapterAndReadByTheSkips := by
  refine ⟨fun o s t r h changed => ?_, fun i s t ks hi h => exec_withKeys ks hi h⟩
  cases o with
  | keyPress k => exact ⟨k, .inl rfl⟩
  | keyRelease k => exact ⟨k, .inr rfl⟩
  | step => exact absurd (step_keeps_keys (perform_step_eq_next.mp h).1) changed
  | loadProgram bytes => cases h; exact absurd (loadProgram_keeps_keys s bytes) changed
  | initialise | tickTimers | readFramebuffer | consumeRedraw => cases h; exact absurd rfl changed

/-! ## ST, the redraw flag, the diagnostic bit and the popped stack entries -/

/-- The state with other values of what no instruction reads. -/
def State.withUnread (s : State) (st : Byte) (redraw unknownSeen : Bool) (stack : Vector Word 16) : State :=
  { s with st := st, redraw := redraw, unknownSeen := unknownSeen, stack := stack }

theorem SameProgramView.eq_withUnread {s t : State} (h : SameProgramView s t) :
    t = s.withUnread t.st t.redraw t.unknownSeen t.stack := by
  obtain ⟨hmem, hv, hi, hpc, hsp, -, hdt, hfb, hkeys, hwait, hfault, hdraws⟩ := h
  simp only [State.withUnread, hmem, hv, hi, hpc, hsp, hdt, hfb, hkeys, hwait, hfault, hdraws]

namespace SameProgramView

variable {s t : State}

theorem reg (h : SameProgramView s t) (r : Nibble) : s.reg r = t.reg r := by
  simp only [State.reg_eq, h.v]

theorem raise (h : SameProgramView s t) (k : FatalKind) : SameProgramView (s.raise k) (t.raise k) :=
  { h with fault := rfl }

theorem setReg (h : SameProgramView s t) (r : Nibble) (b : Byte) : SameProgramView (s.setReg r b) (t.setReg r b) :=
  { h with v := by simp only [State.setReg_v, h.v] }

theorem setI (h : SameProgramView s t) (w : Word) : SameProgramView (s.setI w) (t.setI w) := { h with i := rfl }

theorem advance (h : SameProgramView s t) : SameProgramView s.advance t.advance :=
  { h with pc := by simp only [State.advance_pc, h.pc] }

theorem paint (h : SameProgramView s t) (fb : Screen) : SameProgramView (s.paint fb) (t.paint fb) :=
  { h with fb := rfl }

theorem sprite (h : SameProgramView s t) (x y n : Nibble) : s.sprite x y n = t.sprite x y n := by
  simp only [State.sprite, State.base, h.fb, h.reg, h.mem, h.i]

theorem store (h : SameProgramView s t) (a : Nat) (bs : List Byte) : SameProgramView (s.store a bs) (t.store a bs) :=
  { h with mem := by simp only [State.store_mem, h.mem] }

theorem setRegsFrom (h : SameProgramView s t) (r : Nat) (bs : List Byte) :
    SameProgramView (s.setRegsFrom r bs) (t.setRegsFrom r bs) := by
  induction bs generalizing s t r with
  | nil => exact h
  | cons b bs ih => exact ih (h.setReg _ b) (r + 1)

theorem ifInMemory (h : SameProgramView s t) {u u' : State} (hu : SameProgramView u u') (a n : Nat) :
    SameProgramView (s.ifInMemory a n u) (t.ifInMemory a n u') := by
  unfold State.ifInMemory
  split
  · exact hu
  · exact h.raise _

theorem execRet (h : SameProgramView s t) {s' t' : State} (hs : Machine.execRet s = .next s')
    (ht : Machine.execRet t = .next t') : SameProgramView s' t' := by
  rcases Nat.eq_zero_or_pos s.sp.val with empty | pos
  · cases (execRet_of_empty empty).symm.trans hs
    cases (execRet_of_empty (h.sp ▸ empty)).symm.trans ht
    exact h.raise _
  · cases (execRet_of_pos pos).symm.trans hs
    cases (execRet_of_pos (h.sp ▸ pos)).symm.trans ht
    have top := h.saved ⟨s.sp.val - 1, by omega⟩ (Nat.sub_one_lt_of_lt pos)
    exact
      { h with
        pc := by simpa [← h.sp] using top
        sp := by simp only [State.jumpTo_sp, h.sp]
        saved := fun j hj => h.saved j (Nat.lt_of_lt_of_le hj (Nat.sub_le _ _)) }

theorem execCall (h : SameProgramView s t) {nnn : Addr12} {s' t' : State} (hs : Machine.execCall nnn s = .next s')
    (ht : Machine.execCall nnn t = .next t') : SameProgramView s' t' := by
  rcases Nat.lt_succ_iff_lt_or_eq.mp s.sp.isLt with room | full
  · cases (execCall_of_lt nnn room).symm.trans hs
    cases (execCall_of_lt nnn (h.sp ▸ room)).symm.trans ht
    refine { h with pc := rfl, sp := by simp only [State.jumpTo_sp, h.sp], saved := fun j hj => ?_ }
    rcases Nat.lt_succ_iff_lt_or_eq.mp hj with below | top
    · simpa [← h.sp, Vector.getElem_set_ne, Nat.ne_of_gt below] using h.saved j below
    · simp [← h.sp, top, h.pc]
  · cases (execCall_of_full nnn full).symm.trans hs
    cases (execCall_of_full nnn (h.sp ▸ full)).symm.trans ht
    exact h.raise _

/-- An instruction cannot tell apart two states that agree on all it reads. Those that can fault go through the
lemmas above; the others run alike on `s` and on `s` with other values of the unread parts. -/
theorem exec (h : SameProgramView s t) {i : Instr} {s' t' : State} (hs : Machine.exec i s = .next s')
    (ht : Machine.exec i t = .next t') : SameProgramView s' t' := by
  cases i with
  | ret => exact h.execRet hs ht
  | call nnn => exact h.execCall hs ht
  | drw x y n =>
    cases hs; cases ht
    simp only [State.base, h.i, h.sprite]
    exact h.ifInMemory ((h.setReg _ _).paint _).advance _ _
  | ldB x =>
    cases hs; cases ht
    simp only [State.base, h.i, h.reg]
    exact h.ifInMemory (h.store _ _).advance _ _
  | storeRegs x =>
    cases hs; cases ht
    simp only [State.base, State.indexAfterBlock, h.i, State.regsFrom_congr h.reg]
    exact h.ifInMemory ((h.store _ _).setI _).advance _ _
  | loadRegs x =>
    cases hs; cases ht
    simp only [State.base, State.indexAfterBlock, h.i, h.mem]
    exact h.ifInMemory ((h.setRegsFrom _ _).setI _).advance _ _
  | cls | jp | seImm | sneImm | seReg | sneReg | jpV0 | ldImm | addImm | ldReg | orReg | andReg | xorReg | addReg
  | subReg | shr | subnReg | shl | rnd | ldI | addI | ldF | skp | sknp | ldVxDt | ldVxK | ldDtVx | ldStVx =>
    have saved := h.saved
    rw [h.eq_withUnread] at ht saved
    cases hs; cases ht
    exact ⟨rfl, rfl, rfl, rfl, rfl, saved, rfl, rfl, rfl, rfl, rfl, rfl⟩

theorem phase (h : SameProgramView s t) : Machine.phase s = Machine.phase t := by
  simp only [Machine.phase, fetchPhase, State.fetch16?, h.fault, h.wait, h.pc, h.mem]

theorem stepResult (h : SameProgramView s t) {s' t' : State} (h' : SameProgramView s' t') :
    Machine.stepResult s s' = Machine.stepResult t t' := by
  simp only [Machine.stepResult, h.phase, h.pc, h'.fault]

theorem step (h : SameProgramView s t) {s' t' : State} (hs : Machine.step s = .next s')
    (ht : Machine.step t = .next t') : SameProgramView s' t' := by
  unfold Machine.step at hs ht
  rw [← h.phase] at ht
  cases hp : Machine.phase s with
  | idle => rw [hp] at hs ht; cases hs; cases ht; exact h
  | complete x k =>
    rw [hp] at hs ht; cases hs; cases ht
    exact { (h.setReg x _).advance with wait := rfl }
  | fetchFault => rw [hp] at hs ht; cases hs; cases ht; exact h.raise _
  | unknown w => rw [hp] at hs ht; cases hs; cases ht; exact { h.advance with }
  | run i => rw [hp] at hs ht; exact h.exec hs ht

end SameProgramView

/-- Settles O51: a step runs through the same case of R80 in both states, and each case keeps the agreement. -/
theorem unreadStateNeverAffectsAStep : Obligations.UnreadStateNeverAffectsAStep :=
  fun _ _ _ _ h hs ht => ⟨h.step hs ht, h.stepResult (h.step hs ht)⟩

end Sys2Proof.Machine

/-! # Memory: what the fetch reads and what a store leaves there -/

namespace Sys2Proof.Machine

/-- Settles O6: the fetch joins the two bytes at the pc, the first one high. -/
theorem fetchIsBigEndian : Obligations.FetchIsBigEndian :=
  fun _ hpc => ⟨_, State.fetch16?_of_le hpc, joinBytes_toNat _ _⟩

theorem Writes.keeps_memory {i : Instr} {s u : State} (h : Writes i s u) (hi : isStore i = false) : u.mem = s.mem := by
  induction h with
  | store hstore => simp [hi] at hstore
  | setReg _ _ _ ih | setI _ _ ih | paint _ _ _ ih | drawn _ _ ih => exact ih
  | none | setDt | setSt | push | pop => rfl

/-- Settles O48: of the writes of an instruction, only `store` touches memory, and the two stores alone use it. -/
theorem onlyTwoInstructionsStore : Obligations.OnlyTwoInstructionsStore := by
  intro i s t h hi
  cases outcome_of_exec h with
  | faults => rfl
  | waits => rfl
  | completes _ hu _ => exact hu.keeps_memory hi

/-- LD [I],Vx where its range lies in memory (R140). -/
theorem exec_storeRegs_of_inside {x : Nibble} {s : State} (inside : s.i.toNat + x.toNat ≤ 0xFFF) :
    exec (.storeRegs x) s =
      .next ((s.store s.base (s.regsFrom 0 (blockSize x))).setI (s.indexAfterBlock x)).advance :=
  congrArg Host.Outcome.next (State.ifInMemory_of_inside (by unfold State.base blockSize; omega))

/-- After V0 to Vx are stored from address `a` up, the byte at `a + r` is Vr. -/
theorem State.readByte_writeBytes_regsFrom (s : State) (m : Memory) (a : Nat) {x r : Nibble}
    (hr : r.toNat ≤ x.toNat) : (m.writeBytes a (s.regsFrom 0 (blockSize x))).readByte (a + r.toNat) = s.reg r := by
  rw [Memory.readByte_writeBytes_inside _ _ _ _ (by simpa [blockSize, Nat.lt_succ_iff] using hr)]
  simp

/-- A block store inside memory puts each Vr it covers at `I + r` and goes on to the next instruction (R140). -/
theorem exec_storeRegs_stores {x : Nibble} {s t : State} (inside : s.i.toNat + x.toNat ≤ 0xFFF)
    (h : exec (.storeRegs x) s = .next t) :
    t.pc = s.pc + 2 ∧ ∀ r : Nibble, r.toNat ≤ x.toNat → t.mem.readByte (s.i.toNat + r.toNat) = s.reg r := by
  obtain rfl := Host.Outcome.next.inj ((exec_storeRegs_of_inside inside).symm.trans h)
  exact ⟨rfl, fun r hr => s.readByte_writeBytes_regsFrom s.mem s.base hr⟩

/-- Settles O47: the next fetch reads the addresses `I + r` and `I + (r + 1)`, where the store put `V[r]` and
`V[r+1]`. -/
theorem blockStoreIsSeenByTheNextFetch : Obligations.BlockStoreIsSeenByTheNextFetch := by
  intro x r s t inside hr hpc h
  obtain ⟨advanced, stored⟩ := exec_storeRegs_stores inside h
  have next : (r + 1).toNat = r.toNat + 1 := by bv_omega
  have high : t.pc.toNat = s.i.toNat + r.toNat := by rw [advanced]; bv_omega
  have low : t.pc.toNat + 1 = s.i.toNat + (r + 1).toNat := by rw [high, next, Nat.add_assoc]
  obtain ⟨w, fetched, value⟩ := fetchIsBigEndian t (by omega)
  rw [low, stored (r + 1) (by omega), high, stored r (by omega)] at value
  exact ⟨w, fetched, value⟩

end Sys2Proof.Machine

/-! # The opcode map: encoder, decoder, legal words and rows -/

namespace Sys2Proof

/-! ## Words written as their fields -/

/-- Settles O2: the fields of such a word choose its arm of the decoder, and the arm reads the operands back. -/
theorem everyWordPatternDecodes : Obligations.EveryWordPatternDecodes := by
  refine ⟨rfl, rfl, fun nnn => ?address, fun x nn => ?immediate, fun x y n => ?nibbles, fun x y => ?family8,
    fun x => ?familiesEF⟩
  case address | immediate | nibbles => simp [decode]
  case family8 => simp [decode, decodeFamily8]
  case familiesEF => simp [decode, decodeFamilyE, decodeFamilyF]

/-- The encoder writes a word of the instruction's pattern, with 0 for the ignored bits. -/
theorem decode_encode (i : Instr) : decode (encode i) = some i := by
  obtain ⟨cls, ret, address, immediate, nibbles, family8, familiesEF⟩ := everyWordPatternDecodes
  cases i with
  | cls => exact cls
  | ret => exact ret
  | jp | call | ldI | jpV0 => simp only [encode, address]
  | seImm | sneImm | ldImm | addImm | rnd => simp only [encode, immediate]
  | seReg | sneReg | drw => simp only [encode, nibbles]
  | ldReg | orReg | andReg | xorReg | addReg | subReg | shr | subnReg | shl => simp only [encode, family8]
  | skp | sknp | ldVxDt | ldVxK | ldDtVx | ldStVx | addI | ldF | ldB | storeRegs | loadRegs =>
    simp only [encode, familiesEF]

theorem decodeBytes_encodeBytes (i : Instr) : decodeBytes (encodeBytes i) = .instr i [] := by
  simp only [encodeBytes, decodeBytes, joinBytes_high_low, decode_encode]

/-- Settles O1: every instruction's word is one of the patterns of O2, and its two bytes join to that word. -/
theorem encodeThenDecodeIsIdentity : Obligations.EncodeThenDecodeIsIdentity :=
  fun i => ⟨decode_encode i, decodeBytes_encodeBytes i⟩

/-! ## The two levels of the decoder -/

/-- The first level of R63: the top nibble names one of the four families with a second level, or it alone selects a
row, whose fixed bits it is. -/
inductive DecodeCase (w : Word) : Prop where
  | family0 (op : fieldOp w = 0x0#4) (eq : decode w = decodeFamily0 w)
  | family8 (op : fieldOp w = 0x8#4) (eq : decode w = decodeFamily8 w)
  | familyE (op : fieldOp w = 0xE#4) (eq : decode w = decodeFamilyE w)
  | familyF (op : fieldOp w = 0xF#4) (eq : decode w = decodeFamilyF w)
  | single (i : Instr) (op : fieldOp w ∉ [0x0#4, 0x8#4, 0xE#4, 0xF#4]) (eq : decode w = some i)
      (row : i.row = ⟨fieldOp w ++ 0x000#12, 0xF000⟩)

theorem decode_cases (w : Word) : DecodeCase w := by
  have eq := decode.eq_def w
  split at eq
  case h_1 op => exact .family0 op eq
  case h_9 op => exact .family8 op eq
  case h_15 op => exact .familyE op eq
  case h_16 =>
    have op : fieldOp w = 0xF#4 := by simp only [imp_false] at *; bv_omega
    exact .familyF op eq
  all_goals
    next op => exact .single _ (by simp [op]) eq (by rw [op]; rfl)

/-! ## Which words decode -/

theorem decodeFamily0_isSome (w : Word) : (decodeFamily0 w).isSome = family0Legal w := by
  unfold decodeFamily0 family0Legal
  split
  · simp [*]
  · split <;> simp [*]

theorem decodeFamily8_isSome (w : Word) : (decodeFamily8 w).isSome = family8Legal (fieldN w) := by
  unfold decodeFamily8 family8Legal
  split <;> simp_all

theorem decodeFamilyE_isSome (w : Word) : (decodeFamilyE w).isSome = familyELegal (fieldNN w) := by
  unfold decodeFamilyE familyELegal
  split <;> simp_all

theorem decodeFamilyF_isSome (w : Word) : (decodeFamilyF w).isSome = familyFLegal (fieldNN w) := by
  unfold decodeFamilyF familyFLegal
  split <;> simp_all

/-- The legality check, read through the decoder's fields. -/
theorem legalWord_eq (w : Word) :
    legalWord w =
      if fieldOp w = 0x0#4 then family0Legal w
      else if fieldOp w = 0x8#4 then family8Legal (fieldN w)
      else if fieldOp w = 0xE#4 then familyELegal (fieldNN w)
      else if fieldOp w = 0xF#4 then familyFLegal (fieldNN w)
      else true := rfl

/-- Settles O3: the two agree on each of the four families, and a word of another family decodes and is legal. -/
theorem decodableWordsAreTheLegalWords : Obligations.DecodableWordsAreTheLegalWords := by
  intro w
  rw [legalWord_eq]
  cases decode_cases w with
  | family0 op eq => simp [eq, op, decodeFamily0_isSome]
  | family8 op eq => simp [eq, op, decodeFamily8_isSome]
  | familyE op eq => simp [eq, op, decodeFamilyE_isSome]
  | familyF op eq => simp [eq, op, decodeFamilyF_isSome]
  | single i op eq =>
    obtain ⟨not0, not8, notE, notF⟩ :
        fieldOp w ≠ 0x0#4 ∧ fieldOp w ≠ 0x8#4 ∧ fieldOp w ≠ 0xE#4 ∧ fieldOp w ≠ 0xF#4 := by
      simpa using op
    simp [eq, not0, not8, notE, notF]

/-! ## The rows are disjoint -/

/-- Two rows that select one word have equal bits wherever both fix them. -/
theorem OpcodeRow.fixed_bits_agree {r r' : OpcodeRow} {w : Word} (h : r.selects w = true) (h' : r'.selects w = true) :
    r.pattern &&& r'.mask = r'.pattern &&& r.mask := by
  rw [← eq_of_beq h, ← eq_of_beq h', BitVec.and_assoc, BitVec.and_assoc, BitVec.and_comm r.mask]

theorem opcodeMap_fixed_bits_differ :
    ∀ r ∈ opcodeMap, ∀ r' ∈ opcodeMap, r.pattern &&& r'.mask = r'.pattern &&& r.mask → r = r' := by
  decide

/-! ## The row of a decoded word -/

theorem Instr.row_mem_opcodeMap (i : Instr) : i.row ∈ opcodeMap := by
  cases i <;> simp [Instr.row, opcodeMap]

section Selection

open Laws.RowMatch (selects_of_bits)

variable {w : Word} {p n : Nibble} {nn : Byte} {i : Instr}

theorem selects_of_fieldOp (op : fieldOp w = p) : OpcodeRow.selects ⟨p ++ 0x000#12, 0xF000⟩ w = true := by
  subst op
  refine selects_of_bits fun k => ?_
  fin_cases k <;> simp only [fieldOp, BitVec.getLsbD_append] <;> simp

theorem selects_of_fieldN (op : fieldOp w = p) (low : fieldN w = n) :
    OpcodeRow.selects ⟨p ++ 0x00#8 ++ n, 0xF00F⟩ w = true := by
  subst op low
  refine selects_of_bits fun k => ?_
  fin_cases k <;> simp only [fieldOp, fieldN, BitVec.getLsbD_append] <;> simp

theorem selects_of_fieldNN (op : fieldOp w = p) (low : fieldNN w = nn) :
    OpcodeRow.selects ⟨p ++ 0x0#4 ++ nn, 0xF0FF⟩ w = true := by
  subst op low
  refine selects_of_bits fun k => ?_
  fin_cases k <;> simp only [fieldOp, fieldNN, BitVec.getLsbD_append] <;> simp

theorem row_selects_of_decodeFamily0 (h : decodeFamily0 w = some i) : i.row.selects w = true := by
  unfold decodeFamily0 at h
  split at h
  · cases h; subst w; rfl
  · split at h <;> cases h; subst w; rfl

theorem row_selects_of_decodeFamily8 (op : fieldOp w = 0x8#4) (h : decodeFamily8 w = some i) :
    i.row.selects w = true := by
  unfold decodeFamily8 at h
  split at h <;> cases h
  all_goals next low => exact selects_of_fieldN op low

theorem row_selects_of_decodeFamilyE (op : fieldOp w = 0xE#4) (h : decodeFamilyE w = some i) :
    i.row.selects w = true := by
  unfold decodeFamilyE at h
  split at h <;> cases h
  all_goals next low => exact selects_of_fieldNN op low

theorem row_selects_of_decodeFamilyF (op : fieldOp w = 0xF#4) (h : decodeFamilyF w = some i) :
    i.row.selects w = true := by
  unfold decodeFamilyF at h
  split at h <;> cases h
  all_goals next low => exact selects_of_fieldNN op low

theorem row_selects_of_decode (h : decode w = some i) : i.row.selects w = true := by
  cases decode_cases w with
  | family0 op eq => exact row_selects_of_decodeFamily0 (eq.symm.trans h)
  | family8 op eq => exact row_selects_of_decodeFamily8 op (eq.symm.trans h)
  | familyE op eq => exact row_selects_of_decodeFamilyE op (eq.symm.trans h)
  | familyF op eq => exact row_selects_of_decodeFamilyF op (eq.symm.trans h)
  | single j op eq row =>
    obtain rfl := Option.some.inj (eq.symm.trans h)
    rw [row]
    exact selects_of_fieldOp rfl

end Selection

/-- Settles O4: two rows differ in a bit that both fix, and each arm of the decoder tests the fixed bits of its row. -/
theorem opcodeRowsAreDisjointAndSelectTheDecode : Obligations.OpcodeRowsAreDisjointAndSelectTheDecode :=
  ⟨fun _ r r' hr hr' h h' => opcodeMap_fixed_bits_differ r hr r' hr' (OpcodeRow.fixed_bits_agree h h'),
    fun _ i h => ⟨i.row_mem_opcodeMap, row_selects_of_decode h⟩⟩

end Sys2Proof

/-! # The step cycle: the cases of R80, what each answers and what each leaves alone -/

namespace Sys2Proof

/-! ## The decoder on the two bytes of an instruction -/

theorem decodeBytes_eq_instr {hi lo : Byte} {i : Instr} {rest : List Byte} :
    decodeBytes (hi :: lo :: rest) = .instr i rest ↔ decode (joinBytes hi lo) = some i := by
  rw [decodeBytes]
  cases decode (joinBytes hi lo) <;> simp

theorem decodeBytes_eq_unknownOpcode {hi lo : Byte} {w : Word} {rest : List Byte} :
    decodeBytes (hi :: lo :: rest) = .unknownOpcode w ↔ joinBytes hi lo = w ∧ decode w = none := by
  rw [decodeBytes]
  cases hd : decode (joinBytes hi lo) with
  | none =>
    simp only [Decoded.unknownOpcode.injEq, iff_self_and]
    rintro rfl
    exact hd
  | some i =>
    simp only [reduceCtorEq, false_iff, not_and]
    rintro rfl
    simp [hd]

end Sys2Proof

namespace Sys2Proof.Machine

/-! ## The phase of a state that fetches -/

theorem phase_unknown_of_fetch {s : State} {w : Word} (hf : s.fault = none) (hw : s.wait = .running)
    (hfetch : s.fetch16? = some w) (hd : decode w = none) : phase s = .unknown w := by
  simp [phase_of_running hf hw, fetchPhase, hfetch, hd]

theorem phase_fetchFault_of_gt {s : State} (hf : s.fault = none) (hw : s.wait = .running)
    (hpc : 0xFFE < s.pc.toNat) : phase s = .fetchFault := by
  simp [phase_of_running hf hw, fetchPhase, (State.fetch16?_none_iff s).mpr hpc]

/-! ## What a step answers in each phase, with its StepResult -/

section StepOfPhase

variable {s t : State}

theorem step_of_idle (hp : phase s = .idle) : step s = .next s := by simp only [step, hp]

theorem step_of_complete {x k : Nibble} (hp : phase s = .complete x k) : step s = .next (s.completeWait x k) := by
  simp only [step, hp]

theorem step_of_fetchFault (hp : phase s = .fetchFault) : step s = .next (s.raise .memoryFault) := by
  simp only [step, hp]

theorem step_of_unknown {w : Word} (hp : phase s = .unknown w) : step s = .next s.reportUnknown := by
  simp only [step, hp]

theorem step_of_run {i : Instr} (hp : phase s = .run i) : step s = exec i s := by simp only [step, hp]

theorem perform_step_of_stepResult {r : StepResult} (ht : step s = .next t) (hr : stepResult s t = r) :
    perform .step s = .next (t, .stepped r) :=
  perform_step_eq_next.mpr ⟨ht, by rw [hr]⟩

theorem perform_step_of_idle (hp : phase s = .idle) : perform .step s = .next (s, .stepped .idle) :=
  perform_step_of_stepResult (step_of_idle hp) (by simp only [stepResult, hp])

theorem perform_step_of_complete {x k : Nibble} (hp : phase s = .complete x k) :
    perform .step s = .next (s.completeWait x k, .stepped .ok) :=
  perform_step_of_stepResult (step_of_complete hp) (by simp only [stepResult, hp])

theorem perform_step_of_fetchFault (hp : phase s = .fetchFault) :
    perform .step s = .next (s.raise .memoryFault, .stepped (.fault .memoryFault)) :=
  perform_step_of_stepResult (step_of_fetchFault hp) (by simp only [stepResult, hp])

theorem perform_step_of_unknown {w : Word} (hp : phase s = .unknown w) :
    perform .step s = .next (s.reportUnknown, .stepped (.unknownOpcode w s.pc)) :=
  perform_step_of_stepResult (step_of_unknown hp) (by simp only [stepResult, hp])

/-- An instruction that leaves no fault latched is reported as `Ok`. -/
theorem perform_step_of_run_ok {i : Instr} (hp : phase s = .run i) (ht : exec i s = .next t) (hf : t.fault = none) :
    perform .step s = .next (t, .stepped .ok) :=
  perform_step_of_stepResult ((step_of_run hp).trans ht) (by simp only [stepResult, hp, hf])

/-- An instruction that leaves fault `k` latched is reported as that fault. -/
theorem perform_step_of_run_fault {i : Instr} {k : FatalKind} (hp : phase s = .run i) (ht : exec i s = .next t)
    (hf : t.fault = some k) : perform .step s = .next (t, .stepped (.fault k)) :=
  perform_step_of_stepResult ((step_of_run hp).trans ht) (by simp only [stepResult, hp, hf])

end StepOfPhase

/-! ## What the parts of the step cycle leave alone -/

theorem Keeps.refl (p : Part) (s : State) : Keeps p s s := by
  cases p with
  | mem | regs | fb => exact fun _ => rfl
  | stack => exact ⟨rfl, rfl⟩
  | i | pc | dt | st | redraw | keys | wait | fault | unknownSeen | draws => rfl

/-- Fault entry is what R157 says it is. -/
theorem takesFault_raise (s : State) (k : FatalKind) : TakesFault k s (s.raise k) := by
  refine ⟨rfl, fun p hp => ?_⟩
  have kept := Keeps.refl p s
  cases p with
  | fault => simp at hp
  | mem | regs | i | pc | stack | dt | st | fb | redraw | keys | wait | unknownSeen | draws => exact kept

theorem keepsAllBut_reportUnknown (s : State) : KeepsAllBut [.pc, .unknownSeen] s s.reportUnknown := by
  intro p hp
  have kept := Keeps.refl p s
  cases p with
  | pc | unknownSeen => simp at hp
  | mem | regs | i | stack | dt | st | fb | redraw | keys | wait | fault | draws => exact kept

theorem keepsAllBut_completeWait (s : State) (x k : Nibble) :
    KeepsAllBut [.regs, .pc, .wait] s (s.completeWait x k) := by
  intro p hp
  have kept := Keeps.refl p s
  cases p with
  | regs | pc | wait => simp at hp
  | mem | i | stack | dt | st | fb | redraw | keys | fault | unknownSeen | draws => exact kept

theorem keepsRegsBut_completeWait (s : State) (x k : Nibble) : KeepsRegsBut [x] s (s.completeWait x k) := by
  intro r hr
  rw [State.reg_completeWait, if_neg (List.ne_of_not_mem_cons hr)]

/-! ## The cases of a step -/

/-- Settles O12: an instruction ends in one of its outcomes, and a step in one of the cases of R80. -/
theorem everyStepAnswersANextState : Obligations.EveryStepAnswersANextState :=
  ⟨fun i s => (exec_outcome i s).imp fun _ h => h.1, step_answers⟩

/-- Settles O7: the fetch reads those two bytes, so the step is in the phase that runs `i`. -/
theorem stepRunsTheDecodedInstruction : Obligations.StepRunsTheDecodedInstruction :=
  fun _ _ hf hw hpc hd =>
    step_of_run (phase_run_of_fetch hf hw (State.fetch16?_of_le hpc) (decodeBytes_eq_instr.mp hd))

/-- Settles O8: a latched fault and a pending wait both put the step in the idle phase. -/
theorem stepIsIdleWhileStopped : Obligations.StepIsIdleWhileStopped := by
  intro s stopped
  have hp : phase s = .idle := by
    rcases stopped with faulted | ⟨x, waiting⟩
    · exact phase_of_fault faulted
    · exact phase_of_awaiting waiting
  exact ⟨step_of_idle hp, perform_step_of_idle hp⟩

/-- Settles O9: the step is in the phase that completes the wait. -/
theorem stepCompletesTheKeyWait : Obligations.StepCompletesTheKeyWait := by
  intro s x k hf latched
  have hp := phase_of_latched hf latched
  refine ⟨_, step_of_complete hp, perform_step_of_complete hp, ?_, rfl, rfl, keepsRegsBut_completeWait s x k,
    keepsAllBut_completeWait s x k⟩
  rw [State.reg_completeWait, if_pos rfl, BitVec.toNat_setWidth_of_le (by decide)]

/-- Settles O10: the fetch reads those two bytes, so the step is in the phase that reports the word. -/
theorem stepReportsAnUnknownWord : Obligations.StepReportsAnUnknownWord := by
  intro s w hf hw hpc hd
  obtain ⟨rfl, undecodable⟩ := decodeBytes_eq_unknownOpcode.mp hd
  have hp := phase_unknown_of_fetch hf hw (State.fetch16?_of_le hpc) undecodable
  exact ⟨_, perform_step_of_unknown hp, rfl, rfl, keepsAllBut_reportUnknown s⟩

/-- Settles O11: the step is in the phase whose fetch takes `MemoryFault`. -/
theorem fetchOutsideMemoryTakesMemoryFault : Obligations.FetchOutsideMemoryTakesMemoryFault :=
  fun s hf hw hpc =>
    ⟨_, perform_step_of_fetchFault (phase_fetchFault_of_gt hf hw hpc), takesFault_raise s _⟩

/-- Settles O13: each case of R80 answers one StepResult, and an instruction `Ok` or `Fault` by its outcome. -/
theorem stepResultSaysWhatChanged : Obligations.StepResultSaysWhatChanged := by
  intro s t r h
  rcases phase_cases s with ⟨hp, stopped⟩ | ⟨x, k, hp, noFault, -⟩ | ⟨hp, noFault, -⟩ |
    ⟨w, hp, -, -, fetched, undecodable⟩ | ⟨w, i, hp, noFault, -⟩
  · cases (perform_step_of_idle hp).symm.trans h
    exact ⟨rfl, stopped⟩
  · cases (perform_step_of_complete hp).symm.trans h
    exact ⟨noFault, noFault, rfl⟩
  · cases (perform_step_of_fetchFault hp).symm.trans h
    exact ⟨noFault, takesFault_raise s _⟩
  · cases (perform_step_of_unknown hp).symm.trans h
    exact ⟨rfl, fetched, undecodable, rfl, rfl, keepsAllBut_reportUnknown s⟩
  · obtain ⟨u, hu, outcome⟩ := exec_outcome i s
    cases outcome with
    | faults =>
      cases (perform_step_of_run_fault hp hu rfl).symm.trans h
      exact ⟨noFault, takesFault_raise s _⟩
    | waits =>
      cases (perform_step_of_run_ok hp hu noFault).symm.trans h
      exact ⟨noFault, noFault, rfl⟩
    | completes _ hwrites _ =>
      obtain ⟨-, -, -, latch, bit⟩ := hwrites.keeps_control
      cases (perform_step_of_run_ok hp hu (latch.trans noFault)).symm.trans h
      exact ⟨noFault, latch.trans noFault, bit⟩

/-! ## Who writes the timers -/

theorem Writes.keeps_timers {i : Instr} {s u : State} (h : Writes i s u) :
    (u.dt = s.dt ∨ ∃ x, i = .ldDtVx x) ∧ (u.st = s.st ∨ ∃ x, i = .ldStVx x) := by
  induction h with
  | setDt hi => exact ⟨.inr ⟨_, hi⟩, .inl rfl⟩
  | setSt hi => exact ⟨.inl rfl, .inr ⟨_, hi⟩⟩
  | setReg _ _ _ ih | setI _ _ ih | paint _ _ _ ih | drawn _ _ ih => exact ih
  | none | store | push | pop => exact ⟨.inl rfl, .inl rfl⟩

theorem exec_keeps_timers {i : Instr} {s t : State} (h : exec i s = .next t) :
    (t.dt = s.dt ∨ ∃ x, i = .ldDtVx x) ∧ (t.st = s.st ∨ ∃ x, i = .ldStVx x) := by
  cases outcome_of_exec h with
  | faults => exact ⟨.inl rfl, .inl rfl⟩
  | waits => exact ⟨.inl rfl, .inl rfl⟩
  | completes _ hu _ => exact hu.keeps_timers

theorem step_keeps_timers {s t : State} (h : step s = .next t) :
    (t.dt = s.dt ∨ ∃ x, phase s = .run (.ldDtVx x)) ∧ (t.st = s.st ∨ ∃ x, phase s = .run (.ldStVx x)) := by
  rcases step_cases s with ⟨e, -⟩ | ⟨x, k, e, -⟩ | ⟨e, -⟩ | ⟨w, e, -⟩ | ⟨w, i, e, hp, -⟩
  · cases e.symm.trans h; exact ⟨.inl rfl, .inl rfl⟩
  · cases e.symm.trans h; exact ⟨.inl rfl, .inl rfl⟩
  · cases e.symm.trans h; exact ⟨.inl rfl, .inl rfl⟩
  · cases e.symm.trans h; exact ⟨.inl rfl, .inl rfl⟩
  · simpa only [hp, Phase.run.injEq] using exec_keeps_timers (e.symm.trans h)

theorem loadProgram_keeps_timers (s : State) (bytes : List Byte) :
    (s.loadProgram bytes).1.dt = s.dt ∧ (s.loadProgram bytes).1.st = s.st := by
  unfold State.loadProgram
  split <;> exact ⟨rfl, rfl⟩

/-- Settles O41: by the cases of an operation; of an instruction's writes, only those of the two moves touch a timer. -/
theorem timersChangeOnlyByTheirWriters : Obligations.TimersChangeOnlyByTheirWriters := by
  intro o s t r h notTick notReset
  cases o with
  | tickTimers => exact absurd rfl notTick
  | initialise => exact absurd rfl notReset
  | step =>
    obtain ⟨dt, st⟩ := step_keeps_timers (perform_step_eq_next.mp h).1
    exact ⟨fun changed => ⟨rfl, dt.resolve_left changed⟩, fun changed => ⟨rfl, st.resolve_left changed⟩⟩
  | loadProgram bytes =>
    cases h
    obtain ⟨dt, st⟩ := loadProgram_keeps_timers s bytes
    exact ⟨fun changed => absurd dt changed, fun changed => absurd st changed⟩
  | keyPress | keyRelease | readFramebuffer | consumeRedraw =>
    cases h
    exact ⟨fun changed => absurd rfl changed, fun changed => absurd rfl changed⟩

end Sys2Proof.Machine

/-! # Control transfer -/

namespace Sys2Proof.Machine

/-! ## What a transfer of control leaves alone, and the targets as numbers -/

theorem keepsAllBut_jumpTo (s : State) (w : Word) : KeepsAllBut [.pc] s (s.jumpTo w) := by
  intro p hp
  have kept := Keeps.refl p s
  cases p with
  | pc => simp at hp
  | mem | regs | i | stack | dt | st | fb | redraw | keys | wait | fault | unknownSeen | draws => exact kept

/-- The frame of RET and of CALL: they write the stack, the depth and the pc. -/
theorem keepsAllBut_setStack_jumpTo (s : State) (stack : Vector Word 16) (sp : Fin 17) (w : Word) :
    KeepsAllBut [.stack, .pc] s (State.jumpTo { s with stack := stack, sp := sp } w) := by
  intro p hp
  have kept := Keeps.refl p s
  cases p with
  | stack | pc => simp at hp
  | mem | regs | i | dt | st | fb | redraw | keys | wait | fault | unknownSeen | draws => exact kept

theorem addrWord_toNat (nnn : Addr12) : (addrWord nnn).toNat = nnn.toNat :=
  BitVec.toNat_setWidth_of_le (by decide)

theorem byteWord_toNat (b : Byte) : (byteWord b).toNat = b.toNat :=
  BitVec.toNat_setWidth_of_le (by decide)

/-- The sum is at most `0x0FFF + 0xFF`, so it does not wrap. -/
theorem addrWord_add_byteWord_toNat (nnn : Addr12) (b : Byte) :
    (addrWord nnn + byteWord b).toNat = nnn.toNat + b.toNat := by
  rw [BitVec.toNat_add, addrWord_toNat, byteWord_toNat]
  exact Nat.mod_eq_of_lt (by omega)

theorem State.skipIf_beq_pc (s : State) (a b : Byte) :
    (s.skipIf (a == b)).pc = if a = b then s.pc + 4 else s.pc + 2 := by
  simp only [State.skipIf_pc, beq_iff_eq]

theorem State.skipIf_bne_pc (s : State) (a b : Byte) :
    (s.skipIf (a != b)).pc = if a = b then s.pc + 2 else s.pc + 4 := by
  simp only [State.skipIf_pc, bne_iff_ne, ite_not]

/-! ## Jumps and skips -/

/-- Settles O18: the word is one of the patterns of O2, and the jump writes the operand to the pc. -/
theorem jpSetsThePc : Obligations.JpSetsThePc :=
  fun nnn s => ⟨decode_encode (.jp nnn), _, rfl, addrWord_toNat nnn, keepsAllBut_jumpTo s _⟩

/-- Settles O22: the target is the sum of the two zero-extended operands, which does not wrap. -/
theorem indexedJumpAddsV0 : Obligations.IndexedJumpAddsV0 :=
  fun nnn s => ⟨_, rfl, addrWord_add_byteWord_toNat nnn (s.reg 0), keepsAllBut_jumpTo s _⟩

/-- Settles O21: each of the four is `skipIf` of an equality of two bytes, or of its negation. -/
theorem registerSkipsMoveThePc : Obligations.RegisterSkipsMoveThePc :=
  ⟨fun x nn s => ⟨_, rfl, s.skipIf_beq_pc (s.reg x) nn, keepsAllBut_jumpTo s _⟩,
    fun x nn s => ⟨_, rfl, s.skipIf_bne_pc (s.reg x) nn, keepsAllBut_jumpTo s _⟩,
    fun x y s => ⟨_, rfl, s.skipIf_beq_pc (s.reg x) (s.reg y), keepsAllBut_jumpTo s _⟩,
    fun x y s => ⟨_, rfl, s.skipIf_bne_pc (s.reg x) (s.reg y), keepsAllBut_jumpTo s _⟩⟩

/-! ## CALL and RET -/

/-- Settles O17: a pop takes one from the depth and leaves the entries. -/
theorem retResumesAfterTheSavedAddress : Obligations.RetResumesAfterTheSavedAddress := by
  intro s nonempty
  refine ⟨_, execRet_of_pos nonempty, Nat.sub_add_cancel nonempty, fun ⟨j, hj⟩ newest => ?_, fun _ _ => rfl,
    keepsAllBut_setStack_jumpTo s s.stack _ _⟩
  obtain rfl : j = s.sp.val - 1 := newest
  rfl

/-- Settles O19: a push writes the entry at the old depth, and no other. -/
theorem callPushesItsOwnAddress : Obligations.CallPushesItsOwnAddress := by
  intro nnn s room
  refine ⟨_, execCall_of_lt nnn room, rfl, addrWord_toNat nnn, fun ⟨j, hj⟩ new => ?_, fun ⟨j, hj⟩ older => ?_,
    keepsAllBut_setStack_jumpTo s _ _ _⟩
  · obtain rfl : j = s.sp.val := new
    exact Vector.getElem_set_self _
  · exact Vector.getElem_set_ne room hj (Nat.ne_of_gt older)

/-! ## A balanced subroutine -/

/-- A push writes at the depth, so nothing that an instruction writes is below it. -/
theorem Writes.keeps_saved {i : Instr} {s u : State} {j : Fin 16} (h : Writes i s u) (hj : j.val < s.sp.val) :
    u.stack[j] = s.stack[j] := by
  induction h with
  | push hlt => exact Vector.getElem_set_ne hlt j.isLt (Nat.ne_of_gt hj)
  | setReg _ _ _ ih | setI _ _ ih | paint _ _ _ ih | drawn _ _ ih => exact ih
  | none | store | setDt | setSt | pop => rfl

theorem exec_keeps_saved {i : Instr} {s t : State} {j : Fin 16} (h : exec i s = .next t) (hj : j.val < s.sp.val) :
    t.stack[j] = s.stack[j] := by
  cases outcome_of_exec h with
  | faults => rfl
  | waits => rfl
  | completes _ hu _ => exact hu.keeps_saved hj

theorem step_keeps_saved {s t : State} {j : Fin 16} (h : step s = .next t) (hj : j.val < s.sp.val) :
    t.stack[j] = s.stack[j] := by
  rcases step_cases s with ⟨e, -⟩ | ⟨x, k, e, -⟩ | ⟨e, -⟩ | ⟨w, e, -⟩ | ⟨w, i, e, -⟩
  · cases e.symm.trans h; rfl
  · cases e.symm.trans h; rfl
  · cases e.symm.trans h; rfl
  · cases e.symm.trans h; rfl
  · exact exec_keeps_saved (e.symm.trans h) hj

/-- A run that never goes below depth `d` keeps the `d` oldest saved values: by induction over the run. -/
theorem RunsAtDepth.keeps_saved {d : Nat} {s t : State} {j : Fin 16} (run : RunsAtDepth d s t) (hj : j.val < d) :
    t.stack[j] = s.stack[j] := by
  induction run with
  | refl => rfl
  | step s t u deep hstep _ ih => exact ih.trans (step_keeps_saved hstep (Nat.lt_of_lt_of_le hj deep))

/-- Settles O20: the CALL saves its own address at the old depth (O19), the body keeps that entry, and the RET, back at
the depth the CALL left, resumes after it (O17). -/
theorem balancedSubroutineReturnsAfterTheCall : Obligations.BalancedSubroutineReturnsAfterTheCall := by
  intro nnn s t u room called body balanced
  obtain ⟨t', called', pushed, -, saved, -⟩ := callPushesItsOwnAddress nnn s room
  obtain rfl : t' = t := Host.Outcome.next.inj (called'.symm.trans called)
  have pushed' : u.sp.val = s.sp.val + 1 := by rw [balanced, pushed]
  obtain ⟨v, returned, popped, resumes, -⟩ := retResumesAfterTheSavedAddress u (by omega)
  have depth : v.sp = s.sp := Fin.ext (by omega)
  have entry : u.stack[(⟨s.sp.val, room⟩ : Fin 16)] = s.pc :=
    (body.keeps_saved (by simp only [pushed]; omega)).trans (saved _ rfl)
  exact ⟨v, returned, by rw [resumes ⟨s.sp.val, room⟩ (by rw [depth]), entry], depth⟩

end Sys2Proof.Machine

/-! # Registers and ALU -/

namespace Sys2Proof.Machine

/-! ## The two shapes of an ALU instruction

Each of them writes one register, or a result to a register and then the flag to VF, and then advances the pc.
RND counts its draw as well. -/

theorem keepsAllBut_setRegs_jumpTo (s : State) (v : Vector Byte 16) (w : Word) :
    KeepsAllBut [.regs, .pc] s (State.jumpTo { s with v := v } w) := by
  intro p hp
  have kept := Keeps.refl p s
  cases p with
  | regs | pc => simp at hp
  | mem | i | stack | dt | st | fb | redraw | keys | wait | fault | unknownSeen | draws => exact kept

theorem keepsAllBut_setRegs_drawn_jumpTo (s : State) (v : Vector Byte 16) (w : Word) :
    KeepsAllBut [.regs, .pc, .draws] s (State.jumpTo (State.drawn { s with v := v }) w) := by
  intro p hp
  have kept := Keeps.refl p s
  cases p with
  | regs | pc | draws => simp at hp
  | mem | i | stack | dt | st | fb | redraw | keys | wait | fault | unknownSeen => exact kept

theorem setReg_advance_spec (s : State) (x : Nibble) (b : Byte) :
    (s.setReg x b).advance.reg x = b ∧ (s.setReg x b).advance.pc = s.pc + 2 ∧
      KeepsRegsBut [x] s (s.setReg x b).advance ∧ KeepsAllBut [.regs, .pc] s (s.setReg x b).advance :=
  ⟨s.reg_setReg_same x b, rfl, fun r hr => s.reg_setReg_ne x r b (List.ne_of_not_mem_cons hr),
    keepsAllBut_setRegs_jumpTo s _ _⟩

/-- The flag is written last, so VF is the flag whatever `x` is, and `V[x]` is the result only if it is not VF. -/
theorem setResult_advance_spec (s : State) (x : Nibble) (b : Byte) (c : Bool) :
    (x ≠ 15 → (s.setResult x b c).advance.reg x = b) ∧ (s.setResult x b c).advance.reg 15 = flagByte c ∧
      (s.setResult x b c).advance.pc = s.pc + 2 ∧ KeepsRegsBut [x, 15] s (s.setResult x b c).advance ∧
      KeepsAllBut [.regs, .pc] s (s.setResult x b c).advance := by
  refine ⟨fun hx => ?result, ?flag, rfl, fun r hr => ?others, keepsAllBut_setRegs_jumpTo s _ _⟩
  case result => exact (s.reg_setResult x x b c).trans ((if_neg hx).trans (if_pos rfl))
  case flag => exact (s.reg_setResult x 15 b c).trans (if_pos rfl)
  case others =>
    have notFlag : r ≠ 15 := List.ne_of_not_mem_cons (List.not_mem_of_not_mem_cons hr)
    exact (s.reg_setResult x r b c).trans ((if_neg notFlag).trans (if_neg (List.ne_of_not_mem_cons hr)))

/-! ## Results and flags as numbers -/

theorem sub_toNat_eq_emod (a b : Byte) : ((a - b).toNat : Int) = (a.toNat - b.toNat : Int) % 256 := by
  rw [BitVec.toNat_sub]
  omega

theorem flagByte_toNat (c : Bool) : (flagByte c).toNat = c.toNat := by
  cases c with
  | false => rfl
  | true => rfl

theorem flagByte_decide_toNat (p : Prop) [Decidable p] : (flagByte (decide p)).toNat = if p then 1 else 0 := by
  rw [flagByte_toNat, Bool.toNat, Bool.cond_decide]

theorem flagByte_carryOut_toNat (a b : Byte) :
    (flagByte (carryOut a b)).toNat = if 255 < a.toNat + b.toNat then 1 else 0 := flagByte_decide_toNat _

theorem flagByte_notBorrow_toNat (a b : Byte) :
    (flagByte (notBorrow a b)).toNat = if b.toNat ≤ a.toNat then 1 else 0 := flagByte_decide_toNat _

theorem flagByte_shiftedOutRight_toNat (a : Byte) : (flagByte (shiftedOutRight a)).toNat = a.toNat % 2 := by
  rw [flagByte_toNat, shiftedOutRight, BitVec.getLsbD, Nat.toNat_testBit, Nat.pow_zero, Nat.div_one]

/-- Bit 7 is the top bit of a byte, so nothing of the value stands above it. -/
theorem flagByte_shiftedOutLeft_toNat (a : Byte) : (flagByte (shiftedOutLeft a)).toNat = a.toNat / 128 := by
  rw [flagByte_toNat, shiftedOutLeft, BitVec.getLsbD, Nat.toNat_testBit]
  omega

/-! ## One register written -/

/-- Settles O24: the word is the encoder's, and the instruction writes one register. -/
theorem loadImmediateWritesTheByte : Obligations.LoadImmediateWritesTheByte :=
  fun x nn s => ⟨decode_encode (.ldImm x nn), _, rfl, setReg_advance_spec s x nn⟩

/-- Settles O25: the sum of two bytes is their sum modulo 256, and the instruction writes one register. -/
theorem addImmediateWrapsWithoutFlag : Obligations.AddImmediateWrapsWithoutFlag := by
  intro x nn s
  obtain ⟨sum, frame⟩ := setReg_advance_spec s x (s.reg x + nn)
  exact ⟨_, rfl, by rw [sum, BitVec.toNat_add], frame⟩

/-- Settles O26: each of the four writes one register. -/
theorem copyAndLogicWriteOnlyTheDestination : Obligations.CopyAndLogicWriteOnlyTheDestination :=
  fun x y s => ⟨⟨_, rfl, setReg_advance_spec s x (s.reg y)⟩, ⟨_, rfl, setReg_advance_spec s x (s.reg x ||| s.reg y)⟩,
    ⟨_, rfl, setReg_advance_spec s x (s.reg x &&& s.reg y)⟩, ⟨_, rfl, setReg_advance_spec s x (s.reg x ^^^ s.reg y)⟩⟩

/-- Settles O30: one register written, and the draw counted, which no register sees. -/
theorem randomByteIsMasked : Obligations.RandomByteIsMasked := by
  intro x nn s
  obtain ⟨masked, advanced, others, -⟩ := setReg_advance_spec s x (Config.rndByte s.draws &&& nn)
  exact ⟨_, rfl, masked, rfl, advanced, others, keepsAllBut_setRegs_drawn_jumpTo s _ _⟩

/-! ## A result and the flag -/

/-- Settles O27: the word is the encoder's; the result is the sum, the flag its carry. -/
theorem addSetsTheCarry : Obligations.AddSetsTheCarry := by
  intro x y s
  obtain ⟨sum, carry, frame⟩ :=
    setResult_advance_spec s x (s.reg x + s.reg y) (carryOut (s.reg x) (s.reg y))
  exact ⟨decode_encode (.addReg x y), _, rfl, fun hx => by rw [sum hx, BitVec.toNat_add],
    by rw [carry, flagByte_carryOut_toNat], frame⟩

/-- SUB and SUBN are one subtraction with its operands exchanged. -/
theorem exec_subtraction_spec {i : Instr} {s : State} {x : Nibble} (a b : Byte)
    (subtracts : exec i s = .next (s.setResult x (a - b) (notBorrow a b)).advance) :
    ∃ t, exec i s = .next t ∧ (x ≠ 15 → ((t.reg x).toNat : Int) = (a.toNat - b.toNat : Int) % 256) ∧
      (t.reg 15).toNat = (if b.toNat ≤ a.toNat then 1 else 0) ∧ t.pc = s.pc + 2 ∧ KeepsRegsBut [x, 15] s t ∧
      KeepsAllBut [.regs, .pc] s t := by
  obtain ⟨difference, flag, frame⟩ := setResult_advance_spec s x (a - b) (notBorrow a b)
  exact ⟨_, subtracts, fun hx => by rw [difference hx, sub_toNat_eq_emod],
    by rw [flag, flagByte_notBorrow_toNat], frame⟩

/-- Settles O28: both instructions subtract, SUB Vy from Vx and SUBN Vx from Vy. -/
theorem subtractionsSetTheNotBorrow : Obligations.SubtractionsSetTheNotBorrow :=
  fun x y s => ⟨exec_subtraction_spec (s.reg x) (s.reg y) rfl, exec_subtraction_spec (s.reg y) (s.reg x) rfl⟩

/-- Settles O29: the result is the shifted value, the flag the bit of the old one that falls out. -/
theorem shiftsSetTheShiftedOutBit : Obligations.ShiftsSetTheShiftedOutBit := by
  intro x s
  constructor
  · obtain ⟨half, low, frame⟩ := setResult_advance_spec s x (s.reg x >>> 1) (shiftedOutRight (s.reg x))
    exact ⟨_, rfl, fun hx => by rw [half hx, BitVec.toNat_ushiftRight, Nat.shiftRight_one],
      by rw [low, flagByte_shiftedOutRight_toNat], frame⟩
  · obtain ⟨double, high, frame⟩ := setResult_advance_spec s x (s.reg x <<< 1) (shiftedOutLeft (s.reg x))
    exact ⟨_, rfl, fun hx => by rw [double hx, BitVec.toNat_shiftLeft, Nat.shiftLeft_eq, Nat.pow_one, Nat.mul_comm],
      by rw [high, flagByte_shiftedOutLeft_toNat], frame⟩

end Sys2Proof.Machine

/-! # Graphics -/

namespace Sys2Proof.Machine

/-! ## What CLS and DRW leave alone -/

/-- CLS and DRW write at most registers, the screen with the redraw flag, and the pc. -/
theorem keepsAllBut_setRegs_paint_jumpTo (s : State) (v : Vector Byte 16) (fb : Screen) (w : Word) :
    KeepsAllBut [.fb, .regs, .redraw, .pc] s (State.jumpTo (State.paint { s with v := v } fb) w) := by
  intro p hp
  have kept := Keeps.refl p s
  cases p with
  | fb | regs | redraw | pc => simp at hp
  | mem | i | stack | dt | st | keys | wait | fault | unknownSeen | draws => exact kept

/-- A part that is kept after all can be taken off the list of the changed ones. -/
theorem KeepsAllBut.erase {changed : List Part} {s t : State} {q : Part} (h : KeepsAllBut changed s t)
    (kept : Keeps q s t) : KeepsAllBut (changed.erase q) s t := by
  intro p hp
  by_cases e : p = q
  · exact e ▸ kept
  · exact h p fun changes => hp ((List.mem_erase_of_ne e).mpr changes)

/-- Settles O32: CLS paints the blank screen and writes no register. -/
theorem clsBlanksTheScreen : Obligations.ClsBlanksTheScreen :=
  fun s => ⟨_, rfl, fun j _ => Screen.cell_blank j, rfl, rfl,
    (keepsAllBut_setRegs_paint_jumpTo s s.v _ _).erase (q := .regs) fun _ => rfl⟩

/-! ## The two ways in which DRW ends -/

/-- The state that a DRW which does not fault leaves. -/
def State.drawSprite (s : State) (x y n : Nibble) : State :=
  ((s.setFlag (s.sprite x y n).2).paint (s.sprite x y n).1).advance

theorem exec_drw_of_inside {s : State} {n : Nibble} (x y : Nibble)
    (inside : n.toNat = 0 ∨ s.i.toNat + n.toNat - 1 ≤ 0xFFF) :
    exec (.drw x y n) s = .next (s.drawSprite x y n) :=
  congrArg Host.Outcome.next (State.ifInMemory_of_inside (by unfold State.base; omega))

theorem exec_drw_of_outside {s : State} {n : Nibble} (x y : Nibble)
    (outside : ¬(n.toNat = 0 ∨ s.i.toNat + n.toNat - 1 ≤ 0xFFF)) :
    exec (.drw x y n) s = .next (s.raise .memoryFault) :=
  congrArg Host.Outcome.next (State.ifInMemory_of_outside (by unfold State.base; omega))

theorem State.drawSprite_flag (s : State) (x y n : Nibble) :
    (s.drawSprite x y n).reg 15 = flagByte (s.sprite x y n).2 :=
  s.reg_setReg_same flagReg _

theorem keepsRegsBut_drawSprite (s : State) (x y n : Nibble) : KeepsRegsBut [15] s (s.drawSprite x y n) :=
  fun r hr => s.reg_setReg_ne flagReg r _ (List.ne_of_not_mem_cons hr)

theorem keepsAllBut_drawSprite (s : State) (x y n : Nibble) :
    KeepsAllBut [.fb, .regs, .redraw, .pc] s (s.drawSprite x y n) :=
  keepsAllBut_setRegs_paint_jumpTo s _ _ _

/-- Settles O34: a sprite with rows that is not inside memory takes the fault, and one without rows flips no cell. -/
theorem drwChecksTheWholeSprite : Obligations.DrwChecksTheWholeSprite := by
  refine ⟨fun x y n s rows above => ?_, fun x y s => ?_⟩
  · exact ⟨_, exec_drw_of_outside x y (by omega), takesFault_raise s _⟩
  · have nothing : s.sprite x y 0 = (s.fb, false) := rfl
    have screen : Keeps .fb s (s.drawSprite x y 0) := fun _ => by rw [State.drawSprite, nothing]; rfl
    exact ⟨_, exec_drw_of_inside x y (.inl rfl), by rw [State.drawSprite_flag, nothing]; rfl, rfl, rfl,
      keepsRegsBut_drawSprite s x y 0, (keepsAllBut_drawSprite s x y 0).erase screen⟩

/-! ## The cells that DRW flips -/

/-- The cells that DRW flips, each once: those of the `n` rows at `I`, drawn at the anchor (Vx, Vy). -/
def State.flippedCells (s : State) (x y n : Nibble) : List Nat :=
  spriteCells (s.reg x).toNat (s.reg y).toNat (s.mem.readBytes s.base n.toNat)

theorem State.sprite_eq (s : State) (x y n : Nibble) : s.sprite x y n = s.fb.drawCells (s.flippedCells x y n) := rfl

theorem State.flippedCells_nodup (s : State) (x y n : Nibble) : (s.flippedCells x y n).Nodup :=
  spriteCells_nodup _ _ _

theorem State.flippedCells_bounded {s : State} {x y n : Nibble} {j : Nat} (flipped : j ∈ s.flippedCells x y n) :
    j < 2048 :=
  spriteCells_bounded _ _ _ j flipped

theorem State.cell_sprite (s : State) (x y n : Nibble) (j : Nat) :
    (s.sprite x y n).1.cell j = (s.fb.cell j ^^ decide (j ∈ s.flippedCells x y n)) :=
  s.fb.cell_drawCells (s.flippedCells_nodup x y n) (fun _ => State.flippedCells_bounded) j

theorem State.collision_sprite (s : State) (x y n : Nibble) :
    (s.sprite x y n).2 = true ↔ ∃ j ∈ s.flippedCells x y n, s.fb.cell j = true := by
  rw [State.sprite_eq, Screen.collision_drawCells _ (s.flippedCells_nodup x y n), List.any_eq_true]

/-- The bytes at `I`, the index and the anchor decide which cells are flipped. -/
theorem State.flippedCells_congr {s t : State} {x y : Nibble} (n : Nibble) (index : t.i = s.i)
    (bytes : ∀ a, t.mem.readByte a = s.mem.readByte a) (column : t.reg x = s.reg x) (row : t.reg y = s.reg y) :
    t.flippedCells x y n = s.flippedCells x y n := by
  unfold State.flippedCells State.base
  rw [index, column, row, Memory.readBytes_congr bytes]

theorem spriteBit_iff {s : State} {x y n : Nibble} {px py : Nat} :
    spriteBit s x y n px py = true ↔
      ∃ r c, r < n.toNat ∧ c < 8 ∧ (s.mem.readByte (s.i.toNat + r)).getLsbD (7 - c) = true ∧
        px = (s.reg x).toNat + c ∧ py = (s.reg y).toNat + r := by
  simp only [spriteBit, Bool.and_eq_true, decide_eq_true_eq]
  constructor
  · rintro ⟨⟨⟨⟨left, right⟩, top⟩, bottom⟩, bit⟩
    exact ⟨py - (s.reg y).toNat, px - (s.reg x).toNat, by omega, by omega, bit, by omega, by omega⟩
  · rintro ⟨r, c, hr, hc, bit, rfl, rfl⟩
    exact ⟨⟨⟨⟨by omega, by omega⟩, by omega⟩, by omega⟩, by simpa only [Nat.add_sub_cancel_left] using bit⟩

/-- On the canvas, the flipped cells are those that a set sprite bit falls on. -/
theorem mem_flippedCells_iff {s : State} {x y n : Nibble} {px py : Nat} (hx : px < 64) (hy : py < 32) :
    py * 64 + px ∈ s.flippedCells x y n ↔ spriteBit s x y n px py = true := by
  simp only [State.flippedCells, State.base, mem_spriteCells, spriteBit_iff, Memory.length_readBytes,
    Memory.getElem_readBytes]
  constructor
  · rintro ⟨r, c, hr, hc, bit, right, bottom, e⟩
    exact ⟨r, c, hr, hc, bit, by omega, by omega⟩
  · rintro ⟨r, c, hr, hc, bit, rfl, rfl⟩
    exact ⟨r, c, hr, hc, bit, by omega, by omega, rfl⟩

theorem exists_mem_flippedCells_iff {s : State} {x y n : Nibble} {p : Nat → Prop} :
    (∃ j ∈ s.flippedCells x y n, p j) ↔
      ∃ px py, px < 64 ∧ py < 32 ∧ spriteBit s x y n px py = true ∧ p (py * 64 + px) := by
  constructor
  · rintro ⟨j, flipped, hp⟩
    have joined : j / 64 * 64 + j % 64 = j := Nat.div_add_mod' j 64
    have column : j % 64 < 64 := Nat.mod_lt j (by decide)
    have row : j / 64 < 32 := Nat.div_lt_of_lt_mul (State.flippedCells_bounded flipped)
    exact ⟨j % 64, j / 64, column, row, (mem_flippedCells_iff column row).mp (joined.symm ▸ flipped), joined.symm ▸ hp⟩
  · rintro ⟨px, py, hx, hy, bit, hp⟩
    exact ⟨_, (mem_flippedCells_iff hx hy).mpr bit, hp⟩

/-! ## One draw, and the same one again -/

theorem State.cell_sprite_eq_xor_spriteBit (s : State) (x y n : Nibble) {px py : Nat} (hx : px < 64) (hy : py < 32) :
    (s.sprite x y n).1.cell (py * 64 + px) = (s.fb.cell (py * 64 + px) ^^ spriteBit s x y n px py) := by
  simp only [State.cell_sprite, mem_flippedCells_iff hx hy, Bool.decide_eq_true]

theorem flagByte_eq_one_iff {c : Bool} : flagByte c = 1 ↔ c = true := by
  cases c with
  | false => decide
  | true => decide

theorem State.drawSprite_flag_eq_one_iff (s : State) (x y n : Nibble) :
    (s.drawSprite x y n).reg 15 = 1 ↔ ∃ j ∈ s.flippedCells x y n, s.fb.cell j = true := by
  rw [State.drawSprite_flag, flagByte_eq_one_iff, State.collision_sprite]

theorem State.drawSprite_flag_eq_zero {s : State} {x y n : Nibble}
    (h : ¬∃ j ∈ s.flippedCells x y n, s.fb.cell j = true) : (s.drawSprite x y n).reg 15 = 0 := by
  rw [State.drawSprite_flag, Bool.eq_false_iff.mpr (mt (s.collision_sprite x y n).mp h)]; rfl

/-- Settles O33: DRW flips each cell that a set sprite bit falls on, and the collision is that one of them was lit. -/
theorem drwXorsTheSpriteOntoTheScreen : Obligations.DrwXorsTheSpriteOntoTheScreen :=
  fun x y n s inside => ⟨_, exec_drw_of_inside x y inside,
    fun _ _ hx hy => s.cell_sprite_eq_xor_spriteBit x y n hx hy,
    fun collision => (s.drawSprite_flag_eq_one_iff x y n).mpr (exists_mem_flippedCells_iff.mpr collision),
    fun noCollision => State.drawSprite_flag_eq_zero (mt exists_mem_flippedCells_iff.mp noCollision),
    rfl, rfl, keepsRegsBut_drawSprite s x y n, keepsAllBut_drawSprite s x y n⟩

/-- Where the second draw finds the screen of the first and flips the same cells, each is flipped back. -/
theorem State.cell_sprite_twice {s t : State} {x y n : Nibble} (screen : t.fb = (s.sprite x y n).1)
    (same : t.flippedCells x y n = s.flippedCells x y n) (j : Nat) :
    (t.sprite x y n).1.cell j = s.fb.cell j := by
  rw [State.cell_sprite, screen, State.cell_sprite, same, Bool.xor_assoc, Bool.xor_self, Bool.xor_false]

/-- A flipped cell is lit after the first draw exactly when it was unlit before. -/
theorem State.cell_sprite_of_mem {s : State} {x y n : Nibble} {j : Nat} (flipped : j ∈ s.flippedCells x y n) :
    (s.sprite x y n).1.cell j = true ↔ s.fb.cell j = false := by
  rw [State.cell_sprite, decide_eq_true flipped, Bool.xor_true, Bool.not_eq_true']

/-- Settles O35: both draws end in the same way; if they draw, they flip the same cells, and if they fault, none. -/
theorem drawingTwiceRestoresTheScreen : Obligations.DrawingTwiceRestoresTheScreen := by
  intro x y n s t t' u first screen index bytes column row second
  by_cases inside : n.toNat = 0 ∨ s.i.toNat + n.toNat - 1 ≤ 0xFFF
  · cases (exec_drw_of_inside x y inside).symm.trans first
    cases (exec_drw_of_inside x y (index ▸ inside)).symm.trans second
    have painted : t'.fb = (s.sprite x y n).1 := screen
    have same := State.flippedCells_congr n index bytes column row
    refine ⟨State.cell_sprite_twice painted same, fun _ => ?_⟩
    calc (t'.drawSprite x y n).reg 15 = 1
      _ ↔ ∃ j ∈ s.flippedCells x y n, (s.sprite x y n).1.cell j = true := by
        rw [State.drawSprite_flag_eq_one_iff, same, painted]
      _ ↔ ∃ j ∈ s.flippedCells x y n, s.fb.cell j = false :=
        exists_congr fun j => and_congr_right State.cell_sprite_of_mem
      _ ↔ _ := exists_mem_flippedCells_iff
  · cases (exec_drw_of_outside x y inside).symm.trans first
    cases (exec_drw_of_outside x y (index ▸ inside)).symm.trans second
    exact ⟨fun j => congrArg (Screen.cell · j) screen, fun h => absurd h inside⟩

end Sys2Proof.Machine

/-! # Keys, timers, the index register and the accesses through it -/

namespace Sys2Proof.Machine

/-! ## What each of the writes leaves alone, and one write after another -/

theorem Keeps.trans {p : Part} {s t u : State} (first : Keeps p s t) (second : Keeps p t u) : Keeps p s u := by
  cases p with
  | mem | regs | fb => exact fun j => (second j).trans (first j)
  | stack => exact ⟨second.1.trans first.1, second.2.trans first.2⟩
  | i | pc | dt | st | redraw | keys | wait | fault | unknownSeen | draws => exact Eq.trans second first

/-- Two changes in a row change at most what one of them changes. -/
theorem KeepsAllBut.trans {changed changed' : List Part} {s t u : State} (first : KeepsAllBut changed s t)
    (second : KeepsAllBut changed' t u) : KeepsAllBut (changed ++ changed') s u := by
  intro p hp
  rw [List.mem_append, not_or] at hp
  exact (first p hp.1).trans (second p hp.2)

theorem KeepsAllBut.advance {changed : List Part} {s t : State} (h : KeepsAllBut changed s t) :
    KeepsAllBut (changed ++ [.pc]) s t.advance :=
  h.trans (keepsAllBut_jumpTo t _)

theorem keepsAllBut_setWait (s : State) (w : Wait) : KeepsAllBut [.wait] s (s.setWait w) := by
  intro p hp
  have kept := Keeps.refl p s
  cases p with
  | wait => simp at hp
  | mem | regs | i | pc | stack | dt | st | fb | redraw | keys | fault | unknownSeen | draws => exact kept

theorem keepsAllBut_setDt (s : State) (b : Byte) : KeepsAllBut [.dt] s (s.setDt b) := by
  intro p hp
  have kept := Keeps.refl p s
  cases p with
  | dt => simp at hp
  | mem | regs | i | pc | stack | st | fb | redraw | keys | wait | fault | unknownSeen | draws => exact kept

theorem keepsAllBut_setSt (s : State) (b : Byte) : KeepsAllBut [.st] s (s.setSt b) := by
  intro p hp
  have kept := Keeps.refl p s
  cases p with
  | st => simp at hp
  | mem | regs | i | pc | stack | dt | fb | redraw | keys | wait | fault | unknownSeen | draws => exact kept

theorem keepsAllBut_setI (s : State) (w : Word) : KeepsAllBut [.i] s (s.setI w) := by
  intro p hp
  have kept := Keeps.refl p s
  cases p with
  | i => simp at hp
  | mem | regs | pc | stack | dt | st | fb | redraw | keys | wait | fault | unknownSeen | draws => exact kept

theorem keepsAllBut_store (s : State) (a : Nat) (bs : List Byte) : KeepsAllBut [.mem] s (s.store a bs) := by
  intro p hp
  have kept := Keeps.refl p s
  cases p with
  | mem => simp at hp
  | regs | i | pc | stack | dt | st | fb | redraw | keys | wait | fault | unknownSeen | draws => exact kept

theorem keepsAllBut_setRegsFrom (s : State) (r : Nat) (bs : List Byte) :
    KeepsAllBut [.regs] s (s.setRegsFrom r bs) := by
  intro p hp
  cases p with
  | regs => simp at hp
  | mem | i | pc | stack | dt | st | fb | redraw | keys | wait | fault | unknownSeen | draws => simp [Keeps]

theorem keepsMemBut_store (s : State) (a : Nat) (bs : List Byte) : KeepsMemBut a bs.length s (s.store a bs) :=
  fun b outside => Memory.readByte_writeBytes_outside bs s.mem a b outside

/-! ## Keys and timers -/

/-- A byte that names a key is its index, and one above 15 names none (R142). -/
theorem State.pressed_reg_iff {s : State} {x : Nibble} : s.pressed (s.reg x) = true ↔ NamesPressedKey s x := by
  unfold State.pressed
  split
  · next named =>
    refine ⟨fun down => ⟨⟨_, named⟩, rfl, down⟩, ?_⟩
    rintro ⟨⟨_, _⟩, rfl, down⟩
    exact down
  · next above => exact ⟨nofun, fun ⟨k, index, _⟩ => absurd (index ▸ k.isLt) above⟩

theorem State.skipIf_not_pc (s : State) (c : Bool) : (s.skipIf (!c)).pc = if c then s.pc + 2 else s.pc + 4 := by
  cases c with
  | false => rfl
  | true => rfl

/-- Settles O37: both are `skipIf` of whether the named key is pressed, SKNP of its negation. -/
theorem keySkipsReadTheKeyState : Obligations.KeySkipsReadTheKeyState := by
  intro x s
  have sknp := s.skipIf_not_pc (s.pressed (s.reg x))
  exact ⟨⟨_, rfl, fun pressed => if_pos (State.pressed_reg_iff.mpr pressed),
      fun unpressed => if_neg (mt State.pressed_reg_iff.mp unpressed), keepsAllBut_jumpTo s _⟩,
    ⟨_, rfl, fun pressed => sknp.trans (if_pos (State.pressed_reg_iff.mpr pressed)),
      fun unpressed => sknp.trans (if_neg (mt State.pressed_reg_iff.mp unpressed)), keepsAllBut_jumpTo s _⟩⟩

/-- Settles O38: the instruction writes the wait state, and nothing else. -/
theorem keyWaitBegins : Obligations.KeyWaitBegins :=
  fun x s => ⟨_, rfl, rfl, keepsAllBut_setWait s (.awaitingKey x)⟩

theorem loadProgram_keeps_wait (s : State) (bytes : List Byte) : (s.loadProgram bytes).1.wait = s.wait := by
  unfold State.loadProgram
  split <;> rfl

/-- Settles O39: by the cases of an operation. A step is idle in a pending wait and completes a latched one, and a press
latches a pending wait only. -/
theorem keyWaitEndsByAPressThenAStep : Obligations.KeyWaitEndsByAPressThenAStep := by
  intro o s t r h
  cases o with
  | initialise => cases h; exact ⟨fun _ _ => rfl, fun _ _ _ => rfl⟩
  | keyPress k =>
    cases h
    exact ⟨fun _ awaiting => congrArg (Wait.press · k) awaiting, fun _ _ latched => congrArg (Wait.press · k) latched⟩
  | step =>
    refine ⟨fun x awaiting => ?_, fun x k latched noFault => ?_⟩
    · cases (perform_step_of_idle (phase_of_awaiting awaiting)).symm.trans h
      exact awaiting
    · cases (perform_step_of_complete (phase_of_latched noFault latched)).symm.trans h
      exact s.completeWait_wait x k
  | loadProgram bytes =>
    cases h
    have kept := loadProgram_keeps_wait s bytes
    exact ⟨fun _ => kept.trans, fun _ _ => kept.trans⟩
  | tickTimers | keyRelease | readFramebuffer | consumeRedraw => cases h; exact ⟨fun _ => id, fun _ _ => id⟩

/-- Settles O40: each move writes one register or one timer. -/
theorem timerMovesCopyTheByte : Obligations.TimerMovesCopyTheByte :=
  fun x s => ⟨⟨_, rfl, setReg_advance_spec s x s.dt⟩, ⟨_, rfl, rfl, rfl, (keepsAllBut_setDt s _).advance⟩,
    ⟨_, rfl, rfl, rfl, (keepsAllBut_setSt s _).advance⟩⟩

/-! ## The index register -/

/-- The low nibble is a digit, so five times it does not wrap. -/
theorem glyphAddress_toNat (b : Byte) : (glyphAddress b).toNat = 5 * (b.toNat % 16) := by
  have digit : (b &&& 0x0F).toNat = b.toNat % 16 := Nat.and_two_pow_sub_one_eq_mod b.toNat 4
  rw [glyphAddress, BitVec.toNat_mul, byteWord_toNat, digit]
  exact Nat.mod_eq_of_lt (show 5 * (b.toNat % 16) < 65536 by omega)

/-- Settles O42: each of the three writes I and advances the pc. -/
theorem indexRegisterWrites : Obligations.IndexRegisterWrites := by
  refine ⟨fun nnn s => ?ldI, fun x s => ?addI, fun x s => ?ldF⟩
  case ldI => exact ⟨_, rfl, addrWord_toNat nnn, rfl, (keepsAllBut_setI s _).advance⟩
  case addI =>
    have sum : (s.i + byteWord (s.reg x)).toNat = (s.i.toNat + (s.reg x).toNat) % 65536 := by
      rw [BitVec.toNat_add, byteWord_toNat]
    exact ⟨_, rfl, sum, rfl, (keepsAllBut_setI s _).advance⟩
  case ldF => exact ⟨_, rfl, glyphAddress_toNat (s.reg x), rfl, (keepsAllBut_setI s _).advance⟩

/-! ## LD B,Vx -/

theorem exec_ldB_of_inside {s : State} (x : Nibble) (inside : s.i.toNat + 2 ≤ 0xFFF) :
    exec (.ldB x) s = .next (s.store s.base (bcdDigits (s.reg x))).advance :=
  congrArg Host.Outcome.next (State.ifInMemory_of_inside (by unfold State.base; omega))

theorem exec_ldB_of_outside {s : State} (x : Nibble) (outside : 0xFFF < s.i.toNat + 2) :
    exec (.ldB x) s = .next (s.raise .memoryFault) :=
  congrArg Host.Outcome.next (State.ifInMemory_of_outside (by unfold State.base; omega))

/-- The digits of a byte, stored from address `a` up. -/
theorem State.readByte_store_bcdDigits (s : State) (a : Nat) (b : Byte) :
    ((s.store a (bcdDigits b)).mem.readByte a).toNat = b.toNat / 100 ∧
    ((s.store a (bcdDigits b)).mem.readByte (a + 1)).toNat = b.toNat / 10 % 10 ∧
    ((s.store a (bcdDigits b)).mem.readByte (a + 2)).toNat = b.toNat % 10 := by
  have stored (j : Nat) (hj : j < 3) : (s.store a (bcdDigits b)).mem.readByte (a + j) = (bcdDigits b)[j] :=
    Memory.readByte_writeBytes_inside (bcdDigits b) s.mem a j hj
  have bound := b.isLt
  refine ⟨(congrArg BitVec.toNat (stored 0 (by decide))).trans ?_,
    (congrArg BitVec.toNat (stored 1 (by decide))).trans ?_, (congrArg BitVec.toNat (stored 2 (by decide))).trans ?_⟩
  all_goals exact Nat.mod_eq_of_lt (by omega)

/-- Settles O43: the instruction stores the three digits, or it takes the fault. -/
theorem bcdStoresThreeDigits : Obligations.BcdStoresThreeDigits := by
  refine fun x s => ⟨fun inside => ?_, fun outside => ⟨_, exec_ldB_of_outside x outside, takesFault_raise s _⟩⟩
  obtain ⟨hundreds, tens, units⟩ := s.readByte_store_bcdDigits s.base (s.reg x)
  exact ⟨_, exec_ldB_of_inside x inside, hundreds, tens, units, rfl, keepsMemBut_store s s.base (bcdDigits (s.reg x)),
    (keepsAllBut_store s _ _).advance⟩

/-! ## Block transfers -/

theorem exec_storeRegs_of_outside {x : Nibble} {s : State} (outside : 0xFFF < s.i.toNat + x.toNat) :
    exec (.storeRegs x) s = .next (s.raise .memoryFault) :=
  congrArg Host.Outcome.next (State.ifInMemory_of_outside (by unfold State.base blockSize; omega))

theorem exec_loadRegs_of_inside {x : Nibble} {s : State} (inside : s.i.toNat + x.toNat ≤ 0xFFF) :
    exec (.loadRegs x) s =
      .next ((s.setRegsFrom 0 (s.mem.readBytes s.base (blockSize x))).setI (s.indexAfterBlock x)).advance :=
  congrArg Host.Outcome.next (State.ifInMemory_of_inside (by unfold State.base blockSize; omega))

theorem exec_loadRegs_of_outside {x : Nibble} {s : State} (outside : 0xFFF < s.i.toNat + x.toNat) :
    exec (.loadRegs x) s = .next (s.raise .memoryFault) :=
  congrArg Host.Outcome.next (State.ifInMemory_of_outside (by unfold State.base blockSize; omega))

/-- Inside memory, I does not wrap. -/
theorem State.indexAfterBlock_toNat {s : State} {x : Nibble} (inside : s.i.toNat + x.toNat ≤ 0xFFF) :
    (s.indexAfterBlock x).toNat = s.i.toNat + x.toNat + 1 := by
  unfold State.indexAfterBlock blockSize
  bv_omega

/-- After a load of V0 to Vx from address `a` up, Vr is the byte at `a + r` up to Vx, and as before above it. -/
theorem State.reg_setRegsFrom_readBytes (s : State) (m : Memory) (a : Nat) (x r : Nibble) :
    (s.setRegsFrom 0 (m.readBytes a (blockSize x))).reg r =
      if r.toNat ≤ x.toNat then m.readByte (a + r.toNat) else s.reg r := by
  have fits : 0 + (m.readBytes a (blockSize x)).length ≤ 16 := by
    rw [Memory.length_readBytes, blockSize]; omega
  rw [State.reg_setRegsFrom s 0 _ fits]
  simp [blockSize]

/-- Settles O44: the instruction stores the registers and writes I, or it takes the fault. -/
theorem blockStoreWritesTheRange : Obligations.BlockStoreWritesTheRange := by
  refine fun x s => ⟨fun inside => ?_, fun outside => ⟨_, exec_storeRegs_of_outside outside, takesFault_raise s _⟩⟩
  have others := keepsMemBut_store s s.base (s.regsFrom 0 (blockSize x))
  rw [State.length_regsFrom] at others
  exact ⟨_, exec_storeRegs_of_inside inside, fun r hr => s.readByte_writeBytes_regsFrom s.mem s.base hr,
    State.indexAfterBlock_toNat inside, rfl, others, ((keepsAllBut_store s _ _).trans (keepsAllBut_setI _ _)).advance⟩

/-- Settles O45: the instruction loads the registers and writes I, or it takes the fault. -/
theorem blockLoadReadsTheRange : Obligations.BlockLoadReadsTheRange := by
  refine fun x s => ⟨fun inside => ?_, fun outside => ⟨_, exec_loadRegs_of_outside outside, takesFault_raise s _⟩⟩
  have loaded := s.reg_setRegsFrom_readBytes s.mem s.base x
  have advanced : (s.setRegsFrom 0 (s.mem.readBytes s.base (blockSize x))).pc + 2 = s.pc + 2 := by
    rw [State.setRegsFrom_pc]
  exact ⟨_, exec_loadRegs_of_inside inside, fun r hr => (loaded r).trans (if_pos hr),
    fun r hr => (loaded r).trans (if_neg (Nat.not_le_of_lt hr)), State.indexAfterBlock_toNat inside, advanced,
    ((keepsAllBut_setRegsFrom s _ _).trans (keepsAllBut_setI _ _)).advance⟩

/-- Settles O46: the load reads the bytes that the store wrote (O44, O45). -/
theorem blockStoreThenLoadRoundTrips : Obligations.BlockStoreThenLoadRoundTrips := by
  intro x s t t' u inside stores index bytes loads
  obtain ⟨_, stores', stored, indexStored, -⟩ := (blockStoreWritesTheRange x s).1 inside
  obtain rfl := Host.Outcome.next.inj (stores'.symm.trans stores)
  obtain ⟨_, loads', loaded, -, indexLoaded, -⟩ := (blockLoadReadsTheRange x t').1 (index ▸ inside)
  obtain rfl := Host.Outcome.next.inj (loads'.symm.trans loads)
  refine ⟨fun r hr => ?_, indexStored, BitVec.eq_of_toNat_eq (by rw [indexLoaded, indexStored, index])⟩
  rw [loaded r hr, bytes, index, stored r hr]

end Sys2Proof.Machine

/-! # Faults, and the operations of the timer, the key adapter and the renderer -/

namespace Sys2Proof.Machine

/-! ## When an instruction faults -/

/-- Settles O14: by the outcomes of an instruction. The key-wait has no fatal condition, and of the writes of an
instruction that completes none is of the latch. -/
theorem fatalConditionsAreExactAndPrecise : Obligations.FatalConditionsAreExactAndPrecise := by
  intro i s
  obtain ⟨t, ht, outcome⟩ := exec_outcome i s
  cases outcome with
  | faults condition =>
    refine ⟨fun harmless => absurd (harmless.symm.trans condition) nofun, fun k fatal => ⟨_, ht, ?_⟩⟩
    obtain rfl := Option.some.inj (condition.symm.trans fatal)
    exact takesFault_raise s _
  | waits isWait =>
    subst isWait
    exact ⟨fun _ => ⟨_, ht, rfl⟩, nofun⟩
  | completes harmless writes _ =>
    obtain ⟨-, -, -, latch, -⟩ := writes.keeps_control
    exact ⟨fun _ => ⟨_, ht, latch⟩, fun k fatal => absurd (harmless.symm.trans fatal) nofun⟩

/-- Settles O15: either instruction enters its fault, which is all that R157 lets change. -/
theorem stackFaultsChangeNothingElse : Obligations.StackFaultsChangeNothingElse :=
  ⟨fun nnn s full => ⟨_, execCall_of_full nnn full, takesFault_raise s _⟩,
    fun s empty => ⟨_, execRet_of_empty empty, takesFault_raise s _⟩⟩

/-! ## What the operations of the host leave alone -/

theorem keepsAllBut_setRedraw (s : State) (b : Bool) : KeepsAllBut [.redraw] s (s.setRedraw b) := by
  intro p hp
  have kept := Keeps.refl p s
  cases p with
  | redraw => simp at hp
  | mem | regs | i | pc | stack | dt | st | fb | keys | wait | fault | unknownSeen | draws => exact kept

theorem keepsAllBut_setKey (s : State) (k : Nibble) (b : Bool) : KeepsAllBut [.keys] s (s.setKey k b) := by
  intro p hp
  have kept := Keeps.refl p s
  cases p with
  | keys => simp at hp
  | mem | regs | i | pc | stack | dt | st | fb | redraw | wait | fault | unknownSeen | draws => exact kept

/-- A rejected image changes nothing, and an accepted one is stored (R182, R183). -/
theorem keepsAllBut_loadProgram (s : State) (bytes : List Byte) : KeepsAllBut [.mem] s (s.loadProgram bytes).1 := by
  unfold State.loadProgram
  split
  · exact fun p _ => Keeps.refl p s
  · exact keepsAllBut_store s _ _

theorem keepsAllBut_tickTimers (s : State) : KeepsAllBut [.dt, .st] s s.tickTimers.1 :=
  (keepsAllBut_setDt s _).trans (keepsAllBut_setSt _ _)

theorem keepsAllBut_keyPress (s : State) (k : Nibble) : KeepsAllBut [.keys, .wait] s (s.keyPress k) :=
  (keepsAllBut_setKey s k true).trans (keepsAllBut_setWait _ _)

/-- Settles O16: a faulted core steps idly, and the latch is not among the parts that any operation but `initialize()`
changes. -/
theorem onlyInitialiseEndsAFault : Obligations.OnlyInitialiseEndsAFault := by
  intro o s t r k faulted h
  cases o with
  | initialise =>
    cases h
    exact ⟨fun _ => rfl, fun other => absurd rfl other⟩
  | step =>
    have idle : phase s = .idle := phase_of_fault (by simp [faulted])
    cases (perform_step_of_idle idle).symm.trans h
    exact ⟨nofun, fun _ => faulted⟩
  | loadProgram bytes =>
    cases h
    have kept : (s.loadProgram bytes).1.fault = s.fault := keepsAllBut_loadProgram s bytes .fault (by decide)
    exact ⟨nofun, fun _ => kept.trans faulted⟩
  | tickTimers | keyPress | keyRelease | readFramebuffer | consumeRedraw =>
    cases h
    exact ⟨nofun, fun _ => faulted⟩

/-! ## The timer tick -/

theorem countDown_toNat (b : Byte) : (countDown b).toNat = b.toNat - 1 := by
  unfold countDown
  split
  · next zero => rw [zero]; rfl
  · next above => bv_omega

/-- A timer reaches 0 by the tick that finds it at 1, and `tone_boundary` tests for that 1 (R166). -/
theorem beq_one_iff_countDown_reaches_zero (b : Byte) :
    (b == 1) = true ↔ b.toNat = 1 ∧ (countDown b).toNat = 0 := by
  rw [beq_iff_eq, countDown_toNat]
  exact ⟨fun one => by rw [one]; decide, fun ⟨one, _⟩ => BitVec.eq_of_toNat_eq one⟩

/-- Settles O55: the tick counts each of the two timers down once. -/
theorem tickTimersCountsDown : Obligations.TickTimersCountsDown :=
  fun s => ⟨_, _, rfl, countDown_toNat s.dt, countDown_toNat s.st, beq_one_iff_countDown_reaches_zero s.st,
    keepsAllBut_tickTimers s⟩

/-! ## Keys -/

theorem State.getElem_keys_setKey (s : State) (k : Nibble) (b : Bool) (j : Fin 16) :
    (s.setKey k b).keys[j] = if j.val = k.toNat then b else s.keys[j] := by
  simp only [State.setKey_keys, Fin.getElem_fin, Vector.getElem_set, eq_comm]

theorem Wait.press_of_not_awaiting {w : Wait} (h : ∀ x, w ≠ .awaitingKey x) (k : Nibble) : w.press k = w := by
  cases w with
  | awaitingKey x => exact absurd rfl (h x)
  | running => rfl
  | keyLatched => rfl

/-- Settles O56: a press and a release write one key, and a press the wait state, where only a pending wait takes it. -/
theorem keyPressAndReleaseSetTheKey : Obligations.KeyPressAndReleaseSetTheKey := by
  intro k s
  constructor
  · exact ⟨_, rfl, s.getElem_keys_setKey k true, fun x awaiting => congrArg (Wait.press · k) awaiting,
      fun other => Wait.press_of_not_awaiting other k, keepsAllBut_keyPress s k⟩
  · exact ⟨_, rfl, s.getElem_keys_setKey k false, keepsAllBut_setKey s k false⟩

/-! ## The renderer -/

/-- Settles O57: a read answers the state as it is, and consuming writes the redraw flag. -/
theorem rendererReadsAndConsumes : Obligations.RendererReadsAndConsumes :=
  fun s => ⟨rfl, _, rfl, rfl, keepsAllBut_setRedraw s false⟩

end Sys2Proof.Machine

/-! # Reset and hazards: the self-jump and the load of an image -/

namespace Sys2Proof.Machine

/-! ## A self-jump -/

theorem State.jumpTo_of_pc_eq {s : State} {w : Word} (h : s.pc = w) : s.jumpTo w = s := by
  rw [← h]; rfl

theorem core_run_of_step_fixed {s : State} (fixed : step s = .next s) (n : Nat) :
    Sys2Proof.core.run n s = .next s := by
  induction n with
  | zero => rfl
  | succ n ih =>
    rw [Host.Core.run.eq_2 Sys2Proof.core s n, show Sys2Proof.core.step s = .next s from fixed]
    exact ih

/-- Settles O23: the jump writes the address that the pc already holds, so the state is a fixed point of the step. -/
theorem selfJumpStays : Obligations.SelfJumpStays := by
  intro s nnn noFault running fetched self
  have jumps : step s = .next (s.jumpTo (addrWord nnn)) :=
    step_of_run (phase_run_of_fetch noFault running fetched (decode_encode (.jp nnn)))
  have target : s.pc = addrWord nnn := BitVec.eq_of_toNat_eq (self.trans (addrWord_toNat nnn).symm)
  rw [State.jumpTo_of_pc_eq target] at jumps
  exact core_run_of_step_fixed jumps

/-! ## The load of an image (R182, R183) -/

theorem State.loadProgram_of_fits {s : State} {bytes : List Byte} (fits : 0x200 + bytes.length ≤ 0xFFF) :
    s.loadProgram bytes = (s.store 0x200 bytes, .ok) :=
  if_neg (Nat.not_lt.mpr fits)

theorem State.loadProgram_of_too_long {s : State} {bytes : List Byte} (tooLong : 0xFFF < 0x200 + bytes.length) :
    s.loadProgram bytes = (s, .outOfBounds) :=
  if_pos tooLong

/-- Settles O54: an image that fits is one store from 0x200 up, and a longer one is rejected before any store. -/
theorem loadProgramCopiesOrRejects : Obligations.LoadProgramCopiesOrRejects := by
  intro bytes s
  constructor
  · intro fits
    have copied : perform (.loadProgram bytes) s = .next (s.store 0x200 bytes, .loaded .ok) := by
      rw [perform, State.loadProgram_of_fits fits]
    exact ⟨_, copied, Memory.readByte_writeBytes_inside bytes s.mem 0x200, keepsMemBut_store s 0x200 bytes,
      keepsAllBut_store s 0x200 bytes⟩
  · intro tooLong
    rw [perform, State.loadProgram_of_too_long tooLong]

end Sys2Proof.Machine

/-! # The canonical form of memory, the reset state and the source's example words -/

namespace Sys2Proof.Machine

/-! ## A canonical memory lists exactly the bytes that differ from the unlisted ones -/

/-- Where the addresses rise strictly, an entry is not hidden by an earlier one. -/
theorem Memory.readByte_of_mem {m : Memory} (rising : m.Pairwise (fun c d => c.1 < d.1)) {c : Host.Cell}
    (hc : c ∈ m) : m.readByte c.1 = c.2 := by
  induction m with
  | nil => cases hc
  | cons d m ih =>
    obtain ⟨first, rest⟩ := List.pairwise_cons.mp rising
    rw [Memory.readByte_cons]
    rcases List.mem_cons.mp hc with rfl | hc
    · exact if_pos rfl
    · rw [if_neg (Nat.ne_of_lt (first c hc)), ih rest hc]

theorem Memory.mem_iff_readByte {m : Memory} (h : m.wf) (c : Host.Cell) :
    c ∈ m ↔ m.readByte c.1 = c.2 ∧ c.2 ≠ unlistedByte c.1 := by
  obtain ⟨rising, listed⟩ := h
  constructor
  · exact fun hc => ⟨Memory.readByte_of_mem rising hc, (listed c hc).2⟩
  · rintro ⟨reads, differs⟩
    by_contra absent
    have unlisted : ∀ d ∈ m, d.1 ≠ c.1 := by
      intro d hd same
      have sameByte : d.2 = c.2 := by rw [← Memory.readByte_of_mem rising hd, same, reads]
      exact absent (Prod.ext same sameByte ▸ hd)
    exact differs (reads.symm.trans (Memory.readByte_unlisted m c.1 unlisted))

/-- Settles O49: the reads decide which entries a canonical memory lists, and its order is by address. -/
theorem canonicalMemoriesThatReadAlikeAreEqual : Obligations.CanonicalMemoriesThatReadAlikeAreEqual := by
  intro m m' h h' alike
  have : Std.Asymm (fun c d : Host.Cell => c.1 < d.1) := ⟨fun _ _ => Nat.lt_asymm⟩
  refine h.1.eq_of_mem_iff h'.1 fun c => ?_
  rw [Memory.mem_iff_readByte h, Memory.mem_iff_readByte h', alike]

/-! ## Reset -/

/-- Settles O58: the reset state is what `initialize()` makes of itself. -/
theorem resetMeetsTheInvariant : Obligations.ResetMeetsTheInvariant :=
  Inv.initialise State.reset

end Sys2Proof.Machine

namespace Sys2Proof

/-! ## The words that the source shows (E10) -/

/-- Settles O5: each of the five words is the encoding of the instruction that the source names. -/
theorem sourceExampleWordsDecode : Obligations.SourceExampleWordsDecode :=
  ⟨decode_encode (.ldImm 0 5), decode_encode (.ldImm 1 5), decode_encode (.addReg 0 1), decode_encode (.jp 0x200),
    decode_encode (.ldVxK 0)⟩

end Sys2Proof
